-- ==== Sys2Proof/Word.lean ====
section
/-! DEFINITION. Word.lean: the byte, the unit of every space and every stream of this hardware (R8, R39). -/

namespace Sys2Proof

/-- A byte is 8 bits; bit 0 is the least significant (R8). -/
abbrev Byte := BitVec 8

end Sys2Proof
end

