-- ==== Sys2Proof/Config.lean ====
section
/-! DEFINITION. Config.lean: the constants of R6 and R7, and the free values of R125 and R126. -/

namespace Sys2Proof.Config

/-- `TAG`: the header's tag byte (R6). -/
def tag : Byte := 0x10

/-- `COPY_MIN`: what is added to the 4-bit length field (R6). -/
def copyMin : Nat := 3

/-- The greatest copy length, 18 (R6, R67). -/
def copyMax : Nat := 18

/-- The greatest displacement, 4096 (R6, R68). -/
def dispMax : Nat := 4096

/-- `TILE_STREAM_BYTES`: the bytes that cover the canvas (R6). -/
def tileStreamBytes : Nat := 2048

/-- `CANVAS_W`: pixels in a raster row (R6). -/
def canvasW : Nat := 64

/-- `BYTES_PER_PIXEL`: order R, G, B, A (R6). -/
def bytesPerPixel : Nat := 4

/-- `RASTER_BYTES` (R6). -/
def rasterBytes : Nat := 16384

/-- `PAL_SIZE`: palette entries (R6). -/
def palSize : Nat := 16

/-- `ALPHA_OPAQUE` (R6, R105). -/
def alphaOpaque : Byte := 255

/-- `ALPHA_CLEAR` (R6, R105). -/
def alphaClear : Byte := 0

/-- `LEN` is below this bound: `AW` is 32 bits (R7, D2). -/
def lenBound : Nat := 2 ^ 32

/-- What `N` holds after a failure: R126 leaves it unspecified (log 8). -/
opaque freeN : Nat → BitVec 24

/-- What `src` holds after a failure: R125 and R126 leave it unspecified (log 8). -/
opaque freeSrc : Nat → BitVec 32

/-- What `dst` holds after a failure: R126 leaves it unspecified (log 8). -/
opaque freeDst : Nat → BitVec 24

/-- What `bit` holds after a failure: R125 leaves it unspecified (log 8). -/
opaque freeBit : Nat → BitVec 4

/-- What `crem` holds after a failure: R125 leaves it unspecified (log 8). -/
opaque freeCrem : Nat → BitVec 5

/-- What `cdisp` holds after a failure: R125 leaves it unspecified (log 8). -/
opaque freeCdisp : Nat → BitVec 13

end Sys2Proof.Config
end

