-- ==== Sys2Proof/Syntax.lean ====
section
/-! DEFINITION. Syntax.lean: the units of spec/opcode_table.json, one constructor per row, and the decoder positions
that select them (R70). -/

namespace Sys2Proof

/-- Which unit the decoder's position selects (R70). The bytes themselves never say it. -/
inductive UnitKind where
  | hdr
  | flag
  | lit
  | copy
  | pix2
  | color
  deriving DecidableEq, Repr

/-- One row of the opcode table each. -/
inductive Instr where
  /-- `HDR`: a header with the good tag and declared length `n` (R62, R66). -/
  | hdr (n : BitVec 24)
  /-- `FLAG`: a flag byte (R63). -/
  | flag (f : BitVec 8)
  /-- `LIT`: a literal byte (R64). -/
  | lit (d : BitVec 8)
  /-- `COPY`: a back-reference of `clen` bytes from `cdisp` bytes back (R65, R67, R68). -/
  | copy (clen : BitVec 5) (cdisp : BitVec 13)
  /-- `PIX2`: a tile byte, `lo` the left pixel's index and `hi` the right one's (R76, R103). -/
  | pix2 (hi lo : BitVec 4)
  /-- `COLOR`: a palette value, bit 15 kept though ignored (R77, R78). -/
  | color (x : BitVec 1) (blue green red : BitVec 5)
  deriving DecidableEq, Repr

/-- The position at which the unit stands. -/
def Instr.kind : Instr → UnitKind
  | .hdr _ => .hdr
  | .flag _ => .flag
  | .lit _ => .lit
  | .copy _ _ => .copy
  | .pix2 _ _ => .pix2
  | .color _ _ _ _ => .color

end Sys2Proof
end

