-- ==== Sys2Proof/WellFormed.lean ====
section
/-! DEFINITION. WellFormed.lean: which terms of Instr an encoding of the spec can stand for. -/

namespace Sys2Proof

/-- A `COPY` has length 3 to 18 (R67) and displacement 1 to 4096 (R68); every field value of the other units is legal
(R66, R74, R76, R78). -/
def Instr.wf : Instr → Bool
  | .hdr _ => true
  | .flag _ => true
  | .lit _ => true
  | .copy clen cdisp =>
    decide (Config.copyMin ≤ clen.toNat) && decide (clen.toNat ≤ Config.copyMax) &&
      (decide (1 ≤ cdisp.toNat) && decide (cdisp.toNat ≤ Config.dispMax))
  | .pix2 _ _ => true
  | .color _ _ _ _ => true

end Sys2Proof
end

