-- ==== Sys2Proof/Decode.lean ====
section
/-! DEFINITION. Decode.lean: from stream bytes at a decoder position to a unit (R61 to R78), total on any bytes, and the
encoder that inverts it (R69, R80). -/

namespace Sys2Proof

/-- Why a decoder position's bytes are no unit. -/
inductive Reject where
  /-- The tag byte is not `0x10` (R72). -/
  | tagMismatch
  /-- A byte the unit needs is not there (R122). -/
  | missingByte
  deriving DecidableEq, Repr

/-- `LE24`: the byte at the lowest address is the least significant (R45, R84). -/
def le24 (l0 l1 l2 : Byte) : BitVec 24 :=
  l0.setWidth 24 ||| (l1.setWidth 24 <<< 8) ||| (l2.setWidth 24 <<< 16)

/-- `LE16`: a palette entry in a byte buffer (R49, R113). -/
def le16 (lo hi : Byte) : BitVec 16 :=
  lo.setWidth 16 ||| (hi.setWidth 16 <<< 8)

/-- `clen = b1[7:4] + 3` (R67). -/
def copyLength (b1 : Byte) : BitVec 5 :=
  (b1.extractLsb' 4 4).setWidth 5 + 3

/-- `cdisp = (b1[3:0], b2) + 1`, the high bits first (R47, R68). -/
def copyDisplacement (b1 b2 : Byte) : BitVec 13 :=
  (b1.extractLsb' 0 4 ++ b2).setWidth 13 + 1

/-- The bytes a unit occupies (R71, R76, R77). -/
def UnitKind.size : UnitKind → Nat
  | .hdr => 4
  | .flag => 1
  | .lit => 1
  | .copy => 2
  | .pix2 => 1
  | .color => 2

/-- The nibbles of a tile byte: low is left, high is right (R48, R76, R103). -/
def decodePix2 (v : Byte) : Instr :=
  .pix2 (v.extractLsb' 4 4) (v.extractLsb' 0 4)

/-- The fields of a 16-bit palette value (R77). -/
def decodeColor (c : BitVec 16) : Instr :=
  .color (c.extractLsb' 15 1) (c.extractLsb' 10 5) (c.extractLsb' 5 5) (c.extractLsb' 0 5)

/-- The header: the tag is tested before the length bytes are asked for (R62, R82, R83). -/
def decodeHdr : List Byte → Except Reject (Instr × List Byte)
  | [] => .error .missingByte
  | t :: rest =>
    if t = Config.tag then
      match rest with
      | l0 :: l1 :: l2 :: more => .ok (.hdr (le24 l0 l1 l2), more)
      | _ => .error .missingByte
    else .error .tagMismatch

/-- The back-reference: both bytes must be there (R65, R90). -/
def decodeCopy : List Byte → Except Reject (Instr × List Byte)
  | b1 :: b2 :: more => .ok (.copy (copyLength b1) (copyDisplacement b1 b2), more)
  | _ => .error .missingByte

/-- The palette entry in a byte buffer, low byte first (R49, R77). -/
def decodeColorBytes : List Byte → Except Reject (Instr × List Byte)
  | lo :: hi :: more => .ok (decodeColor (le16 lo hi), more)
  | _ => .error .missingByte

/-- A unit that is one byte. -/
def decodeByte (f : Byte → Instr) : List Byte → Except Reject (Instr × List Byte)
  | b :: more => .ok (f b, more)
  | [] => .error .missingByte

/-- The unit at a position, with the bytes after it. -/
def decode : UnitKind → List Byte → Except Reject (Instr × List Byte)
  | .hdr, bytes => decodeHdr bytes
  | .flag, bytes => decodeByte .flag bytes
  | .lit, bytes => decodeByte .lit bytes
  | .copy, bytes => decodeCopy bytes
  | .pix2, bytes => decodeByte decodePix2 bytes
  | .color, bytes => decodeColorBytes bytes

/-- The 16-bit value of a palette entry's fields, bit 15 first (R77). -/
def colorValue (x : BitVec 1) (blue green red : BitVec 5) : BitVec 16 :=
  x ++ blue ++ green ++ red

/-- A unit's bytes in stream order (R62 to R65, R69, R76, R77). -/
def encode : Instr → List Byte
  | .hdr n => [Config.tag, n.extractLsb' 0 8, n.extractLsb' 8 8, n.extractLsb' 16 8]
  | .flag f => [f]
  | .lit d => [d]
  | .copy clen cdisp =>
    [(clen - 3).extractLsb' 0 4 ++ (cdisp - 1).extractLsb' 8 4, (cdisp - 1).extractLsb' 0 8]
  | .pix2 hi lo => [hi ++ lo]
  | .color x blue green red =>
    [(colorValue x blue green red).extractLsb' 0 8, (colorValue x blue green red).extractLsb' 8 8]

/-- The low `count` bytes of a number, most significant first: how the opcode table numbers a row's bits ("the 4 stream
bytes read as one big-endian 32-bit word"; "b1 is bits 15:8, b2 is bits 7:0") (log 9). -/
def bytesBE : Nat → Nat → List Byte
  | 0, _ => []
  | m + 1, w => BitVec.ofNat 8 (w / 2 ^ (8 * m)) :: bytesBE m w

/-- The position at which a table row's word is read when only its length is given (log 9). -/
def tableKind : Nat → Option UnitKind
  | 8 => some .flag
  | 16 => some .copy
  | 32 => some .hdr
  | _ => none

/-- The unit the decoder reads from a table row's word of `nbits` bits. -/
def decodeTableWord (nbits w : Nat) : Option Instr :=
  match tableKind nbits with
  | none => none
  | some kind =>
    match decode kind (bytesBE kind.size w) with
    | .ok (i, []) => some i
    | _ => none

end Sys2Proof
end

