-- ==== Sys2Proof/Machine/State.lean ====
section
/-! DEFINITION. Machine/State.lean: the state of the two engines, of the colour conversion and of the host's side, as
plain data, and the state after reset (10_state.md, R141). -/

namespace Sys2Proof.Machine

/-- The four byte spaces; none overlaps another (R39). -/
inductive Space where
  | input
  | out
  | tile
  | raster
  deriving DecidableEq, Repr

/-- BD's `phase` register (R24). -/
inductive Phase where
  | idle
  | hdr
  | flag
  | unit
  | copy
  | done
  | err
  deriving DecidableEq, Repr

/-- BD's `STATUS`, a view of the phase (R25). -/
inductive Status where
  | idle
  | busy
  | done
  | err
  deriving DecidableEq, Repr

/-- TRD's `tphase`, which the host sees as `TSTATUS` (R32). -/
inductive TPhase where
  | tidle
  | tbusy
  | tdone
  deriving DecidableEq, Repr

/-- BD's three failures (R120). -/
inductive Failure where
  | invalidHeader
  | truncatedInput
  | corruptData
  deriving DecidableEq, Repr

/-- `ERRCODE` as an enumeration (R26, D4). -/
inductive ErrCode where
  | noError
  | invalidHeader
  | truncatedInput
  | corruptData
  deriving DecidableEq, Repr

/-- The block decompressor: its launch arguments (R15), registers (R16 to R26) and output buffer (R41). -/
structure Bd where
  /-- `IN`, read-only. -/
  input : List Host.Cell
  /-- `LEN`. -/
  len : BitVec 32
  /-- `OFFSET`. -/
  offset : BitVec 32
  /-- `N`, the declared length. -/
  n : BitVec 24
  /-- `src`, the read cursor into IN and the program counter. -/
  src : BitVec 32
  /-- `dst`, the write cursor into OUT. -/
  dst : BitVec 24
  /-- The current flag byte. -/
  flags : BitVec 8
  /-- Flag positions already consumed. -/
  bit : BitVec 4
  /-- Bytes the current `COPY` still has to copy. -/
  crem : BitVec 5
  /-- The displacement of the current `COPY`. -/
  cdisp : BitVec 13
  /-- Which rule applies next. -/
  phase : Phase
  /-- `ERRCODE`. -/
  errcode : ErrCode
  /-- `OUT`: the bytes written so far; an unlisted byte has no value (R41). -/
  out : List Host.Cell
  deriving DecidableEq, Repr

/-- The sixteen palette registers (R30). -/
abbrev Palette := Vector (BitVec 16) 16

/-- The tile raster decoder: its launch arguments (R29), registers (R30 to R32) and raster (R43). -/
structure Trd where
  /-- `TILE`, read-only. -/
  tile : List Host.Cell
  /-- `TLEN`. -/
  tlen : Nat
  /-- `PAL[0..15]`. -/
  pal : Palette
  /-- The index of the next tile byte. -/
  k : BitVec 12
  /-- `tphase`. -/
  tphase : TPhase
  /-- `RASTER`: an unlisted byte is 0 (R43, R100). -/
  raster : List Host.Cell
  deriving DecidableEq, Repr

/-- An output pixel, bytes R, G, B, A at increasing addresses (R79). -/
structure Pixel where
  r : Byte
  g : Byte
  b : Byte
  a : Byte
  deriving DecidableEq, Repr

/-- The standalone colour conversion (R104, R112): the index it is called with and the value it returned last (log 10). -/
structure Conv where
  p : BitVec 4
  rgba : Pixel
  deriving DecidableEq, Repr

/-- BD's response (R27). -/
inductive BdResponse where
  /-- The decompressed buffer, of exactly `N` bytes. -/
  | ok (buf : List Byte)
  /-- A failure, and no buffer (R126). -/
  | err (e : Failure)
  deriving DecidableEq, Repr

/-- What the host can do to the hardware (R155). -/
inductive HostAction where
  /-- `START` with the bytes of IN (their number is `LEN`) and `OFFSET` (R81). -/
  | start (bytes : List Byte) (offset : BitVec 32)
  /-- `TSTART` with the bytes of TILE (their number is `TLEN`) and sixteen palette values (R100). -/
  | tstart (bytes : List Byte) (palette : Palette)
  /-- Take BD's response (R27, R155). -/
  | takeBd
  /-- Take TRD's response (R33, R155). -/
  | takeTrd
  /-- Steps 4 to 6 of the intended sequence: `gfx` and `pal` are the places, among the responses taken, of the graphics
  block's and of the palette block's, so the two may have been decompressed in either order (R113 to R117, R148). -/
  | tstartSprite (gfx pal : Nat)
  /-- Call the colour conversion on a palette value and an index (R104, R112). -/
  | convert (c : BitVec 16) (p : BitVec 4)
  /-- Power-on reset of both engines (R141, R155). -/
  | reset
  deriving DecidableEq, Repr

/-- One move of an agent (log 5). -/
inductive Move where
  /-- The host acts. -/
  | host (a : HostAction)
  /-- BD takes one step. -/
  | bd
  /-- TRD takes one step. -/
  | trd
  /-- The host waits for BD's response: BD steps while it is busy. -/
  | awaitBd
  /-- The host waits for TRD's response: TRD steps while it is busy. -/
  | awaitTrd
  deriving DecidableEq, Repr

/-- What the host holds (R155, D21; log 16). -/
structure HostSide where
  /-- BD responses taken, oldest first. -/
  taken : List BdResponse
  /-- Rasters taken, oldest first. -/
  frames : List (List Byte)
  deriving DecidableEq, Repr

/-- The whole machine. -/
structure State where
  /-- The block decompressor. -/
  bd : Bd
  /-- The tile raster decoder. -/
  trd : Trd
  /-- The colour conversion. -/
  conv : Conv
  /-- What the host holds. -/
  host : HostSide
  /-- The moves still to come, the next one first; with none left the engines run on (log 5). -/
  agenda : List Move
  /-- Free values drawn so far (log 8). -/
  draws : Nat
  deriving DecidableEq, Repr

/-- Why a step stops with a fault. No run from a launch reaches one. -/
inductive Fault where
  /-- A `COPY` byte step read an OUT byte that has no value (D22, U2). Raised by `copyByte`. Safe. -/
  | unwrittenOut (a : Nat)
  /-- A byte of IN below `LEN` was never loaded. Raised by BD's fetch. Safe (log 4). -/
  | unloadedInput (a : Nat)
  /-- A byte of TILE below `TLEN` was never loaded. Raised by TRD's fetch. Safe (log 4). -/
  | unloadedTile (a : Nat)
  deriving DecidableEq, Repr

/-- What the model gives no meaning. -/
inductive Refusal where
  /-- The instruction has no meaning yet. Raised by `exec`'s refused arms. Safe. -/
  | notModelled (mnemonic : String)
  /-- A unit was asked for where the engine's registers do not select it (R70). Raised by the meanings. Safe (log 12). -/
  | notSelected
  /-- `START` or `TSTART` of a busy engine (R147, D9). Raised by the host's actions. Safe (log 7). -/
  | launchWhileBusy
  /-- The host reached for a response that does not exist (R146). Raised by the host's actions. Safe (log 16). -/
  | noResponse
  /-- A palette packed from fewer than 32 bytes (R114, D14). Raised by the host's actions. Safe (log 13). -/
  | shortPalette
  /-- An input of 2^32 bytes or more, which `LEN` cannot state (D2). Raised by the host's actions. Safe (log 6). -/
  | inputTooLong
  deriving DecidableEq, Repr

/-- BD after reset: `IDLE`, `ERRCODE` 0 (R36, R141); the rest by log 1 and log 2. -/
def Bd.reset : Bd where
  input := []
  len := 0
  offset := 0
  n := 0
  src := 0
  dst := 0
  flags := 0
  bit := 0
  crem := 0
  cdisp := 0
  phase := .idle
  errcode := .noError
  out := []

/-- TRD after reset: `TIDLE` (R36, R141); the rest by log 1 and log 3. -/
def Trd.reset : Trd where
  tile := []
  tlen := 0
  pal := Vector.replicate 16 0
  k := 0
  tphase := .tidle
  raster := []

/-- The conversion's latches after reset (log 10). -/
def Conv.reset : Conv where
  p := 0
  rgba := { r := 0, g := 0, b := 0, a := 0 }

/-- The machine right after reset: nothing runs until the host launches an engine (R141). -/
def State.reset : State where
  bd := Bd.reset
  trd := Trd.reset
  conv := Conv.reset
  host := { taken := [], frames := [] }
  agenda := []
  draws := 0

end Sys2Proof.Machine
end

