-- ==== Sys2Proof/Machine/Flags.lean ====
section
/-! DEFINITION. Machine/Flags.lean: the flag positions of a flag byte, the status views and the sequencing `NEXT`. There
are no arithmetic flags (R34). -/

namespace Sys2Proof.Machine

/-- `STATUS` of a phase (R25). -/
def Phase.status : Phase → Status
  | .idle => .idle
  | .hdr => .busy
  | .flag => .busy
  | .unit => .busy
  | .copy => .busy
  | .done => .done
  | .err => .err

/-- `STATUS` (R25). -/
def Bd.status (b : Bd) : Status := b.phase.status

/-- `TSTATUS` (R32). -/
def Trd.tstatus (t : Trd) : TPhase := t.tphase

/-- The number of an error code (R26, D4). -/
def ErrCode.bits : ErrCode → BitVec 2
  | .noError => 0
  | .invalidHeader => 1
  | .truncatedInput => 2
  | .corruptData => 3

/-- The `ERRCODE` a failure leaves (R120). -/
def Failure.code : Failure → ErrCode
  | .invalidHeader => .invalidHeader
  | .truncatedInput => .truncatedInput
  | .corruptData => .corruptData

/-- The failure an `ERRCODE` names (R27). -/
def ErrCode.failure : ErrCode → Option Failure
  | .noError => none
  | .invalidHeader => some .invalidHeader
  | .truncatedInput => some .truncatedInput
  | .corruptData => some .corruptData

/-- The failure that bytes which are no unit raise (R121, R122). -/
def failureOf : Reject → Failure
  | .tagMismatch => .invalidHeader
  | .missingByte => .truncatedInput

/-- Flag position `i`, counted from the most significant bit: `flags[7 - i]` (R8, R46, R88). -/
def flagAt (flags : BitVec 8) (i : Nat) : Bool := flags.getLsbD (7 - i)

/-- The kind of unit a flag bit announces (R63). -/
def unitOf : Bool → UnitKind
  | false => .lit
  | true => .copy

/-- The unit kind BD's registers select, if a unit is due (R24, R70, R88). -/
def Bd.selects (b : Bd) : Option UnitKind :=
  match b.phase with
  | .hdr => some .hdr
  | .flag => if b.dst < b.n then some .flag else none
  | .unit => if b.dst < b.n ∧ b.bit ≤ 7 then some (unitOf (flagAt b.flags b.bit.toNat)) else none
  | .idle => none
  | .copy => none
  | .done => none
  | .err => none

/-- `NEXT`: completion is tested before the flag byte's end (R95). -/
def nextPhase (n dst : BitVec 24) (bit : BitVec 4) : Phase :=
  if n ≤ dst then .done else if bit = 8 then .flag else .unit

end Sys2Proof.Machine
end

