-- ==== Sys2Proof/Machine/Ops.lean ====
section
/-! DEFINITION. Machine/Ops.lean: the operations over the byte spaces, raising a failure, and launching an engine. -/

namespace Sys2Proof.Machine

/-- What an unlisted address reads as, the one place it is said: no value in IN, OUT and TILE, 0 in RASTER
(R41, R43, D22; log 2, 3, 4). -/
def Space.unlisted : Space → Option Byte
  | .input => none
  | .out => none
  | .tile => none
  | .raster => some 0

/-- The canonical form: addresses strictly rising, and nothing listed that an unlisted address reads as. -/
abbrev MemWf (sp : Space) (m : List Host.Cell) : Prop :=
  m.Pairwise (fun c d => c.1 < d.1) ∧ ∀ c ∈ m, sp.unlisted ≠ some c.2

/-- The byte at an address, if it has a value. -/
def memRead (sp : Space) : List Host.Cell → Nat → Option Byte
  | [], _ => sp.unlisted
  | c :: rest, a => if c.1 = a then some c.2 else memRead sp rest a

/-- A cell before a list, unless it holds what an unlisted address reads as. -/
def memCons (sp : Space) (a : Nat) (v : Byte) (rest : List Host.Cell) : List Host.Cell :=
  if sp.unlisted = some v then rest else (a, v) :: rest

/-- One byte written; the canonical form is kept. -/
def memWrite (sp : Space) : List Host.Cell → Nat → Byte → List Host.Cell
  | [], a, v => memCons sp a v []
  | c :: rest, a, v =>
    if a < c.1 then memCons sp a v (c :: rest)
    else if a = c.1 then memCons sp a v rest
    else c :: memWrite sp rest a v

/-- A buffer of bytes laid out from an address: how the host hands over IN and TILE (R15, R29). -/
def memOfBytes : Nat → List Byte → List Host.Cell
  | _, [] => []
  | a, v :: rest => (a, v) :: memOfBytes (a + 1) rest

/-- `count` bytes from an address, if all have a value. -/
def memReadRange (sp : Space) (m : List Host.Cell) : Nat → Nat → Option (List Byte)
  | _, 0 => some []
  | a, count + 1 =>
    match memRead sp m a with
    | none => none
    | some v =>
      match memReadRange sp m (a + 1) count with
      | none => none
      | some vs => some (v :: vs)

/-- The state with another BD. -/
def State.setBd (s : State) (b : Bd) : State := { s with bd := b }

/-- The state with another TRD. -/
def State.setTrd (s : State) (t : Trd) : State := { s with trd := t }

/-- The state with other conversion latches. -/
def State.setConv (s : State) (c : Conv) : State := { s with conv := c }

/-- The state with another host side. -/
def State.setHost (s : State) (h : HostSide) : State := { s with host := h }

/-- The state with other moves to come. -/
def State.setAgenda (s : State) (ms : List Move) : State := { s with agenda := ms }

/-- The state with another count of free values drawn. -/
def State.setDraws (s : State) (d : Nat) : State := { s with draws := d }

/-- `raise E`, the one entry of a failure: `ERRCODE` and `ERR`, nothing written to OUT, the cursors and the copy
registers left with free values (R125, R126, C12; log 8). No return exists: only `launchBd` or a reset leaves `ERR` (R130). -/
def raise (e : Failure) (s : State) : State :=
  (s.setBd
    { s.bd with
      n := Config.freeN s.draws
      src := Config.freeSrc s.draws
      dst := Config.freeDst s.draws
      bit := Config.freeBit s.draws
      crem := Config.freeCrem s.draws
      cdisp := Config.freeCdisp s.draws
      phase := .err
      errcode := e.code }).setDraws (s.draws + 1)

/-- `START`: the arguments are held, `ERRCODE` cleared, the phase is `HDR` (R81). It also leaves `ERR` (R130). -/
def launchBd (bytes : List Byte) (offset : BitVec 32) (s : State) : State :=
  s.setBd
    { s.bd with
      input := memOfBytes 0 bytes
      len := BitVec.ofNat 32 bytes.length
      offset := offset
      errcode := .noError
      phase := .hdr }

/-- `TSTART`: palette loaded, raster cleared, `k` zero (R100). -/
def launchTrd (bytes : List Byte) (palette : Palette) (s : State) : State :=
  s.setTrd
    { tile := memOfBytes 0 bytes
      tlen := bytes.length
      pal := palette
      k := 0
      tphase := if bytes.length = 0 then .tdone else .tbusy
      raster := [] }

/-- Reset of the hardware: both engines and the conversion; a launch under way is abandoned (R141). -/
def resetEngines (s : State) : State :=
  ((s.setBd Bd.reset).setTrd Trd.reset).setConv Conv.reset

/-- BD's response, if there is one (R27): the buffer in `DONE`, the code alone in `ERR` (R126). -/
def Bd.response (b : Bd) : Option BdResponse :=
  match b.phase with
  | .done => (memReadRange .out b.out 0 b.n.toNat).map .ok
  | .err => b.errcode.failure.map .err
  | .idle => none
  | .hdr => none
  | .flag => none
  | .unit => none
  | .copy => none

/-- TRD's response, if there is one: the 16384 bytes of RASTER (R33). -/
def Trd.response (t : Trd) : Option (List Byte) :=
  match t.tphase with
  | .tdone => memReadRange .raster t.raster 0 Config.rasterBytes
  | .tidle => none
  | .tbusy => none

end Sys2Proof.Machine
end

