-- ==== Sys2Proof/Machine/Operands.lean ====
section
/-! DEFINITION. Machine/Operands.lean: where a unit's bytes stand, where a tile byte's pixels land, the colour conversion
and the packing of a palette. -/

namespace Sys2Proof.Machine

/-- Where the unit BD is about to decode begins: `OFFSET` for the header, `src` after it (R82, R87). -/
def Bd.cursor (b : Bd) : Nat :=
  match b.phase with
  | .hdr => b.offset.toNat
  | .idle => b.src.toNat
  | .flag => b.src.toNat
  | .unit => b.src.toNat
  | .copy => b.src.toNat
  | .done => b.src.toNat
  | .err => b.src.toNat

/-- Every byte of a unit of `count` bytes at the cursor is below `LEN`: the bounds tests of `InByte`, on natural numbers
(R10, R38, R83). -/
abbrev Bd.holds (b : Bd) (count : Nat) : Prop := b.cursor + count ≤ b.len.toNat

/-- Those of `count` bytes from an address that lie below the length, or the address of one that was never loaded
(R40, R122: no byte at or past the length is read). -/
def inBytes (sp : Space) (m : List Host.Cell) (len : Nat) : Nat → Nat → Except Nat (List Byte)
  | _, 0 => .ok []
  | a, count + 1 =>
    if len ≤ a then .ok []
    else
      match memRead sp m a with
      | none => .error a
      | some v =>
        match inBytes sp m len (a + 1) count with
        | .error h => .error h
        | .ok vs => .ok (v :: vs)

/-- Tile number of tile byte `k` (R101). -/
def tileNumber (k : Nat) : Nat := k / 32

/-- Canvas row of both pixels of tile byte `k` (R101). -/
def pixelRow (k : Nat) : Nat := tileNumber k / 8 * 8 + k % 32 / 4

/-- Canvas column of the left pixel of tile byte `k` (R101). -/
def leftColumn (k : Nat) : Nat := tileNumber k % 8 * 8 + k % 4 * 2

/-- Canvas column of the right pixel of tile byte `k` (R101). -/
def rightColumn (k : Nat) : Nat := leftColumn k + 1

/-- The raster address of a pixel's first byte (R43, R106). -/
def rasterAddr (x y : Nat) : Nat := (y * Config.canvasW + x) * Config.bytesPerPixel

/-- A 5-bit channel times 8 (R104). -/
def scaleChannel (c : BitVec 5) : Byte := c.setWidth 8 <<< 3

/-- Alpha depends on the index alone (R105). -/
def alphaOf (p : BitVec 4) : Byte := if p = 0 then Config.alphaClear else Config.alphaOpaque

/-- `RGBA` on a palette value's fields (R104). -/
def rgbaOfFields (blue green red : BitVec 5) (p : BitVec 4) : Pixel where
  r := scaleChannel red
  g := scaleChannel green
  b := scaleChannel blue
  a := alphaOf p

/-- `RGBA(c, p)`: bit 15 reaches no output (R78, R104). -/
def rgba (c : BitVec 16) (p : BitVec 4) : Pixel :=
  rgbaOfFields (c.extractLsb' 10 5) (c.extractLsb' 5 5) (c.extractLsb' 0 5) p

/-- The palette register an index names (R30). -/
def palAt (pal : Palette) (p : BitVec 4) : BitVec 16 := pal[p.toNat]'p.isLt

/-- `PutPixel`: four bytes at increasing addresses (R50, R106). -/
def putPixel (m : List Host.Cell) (x y : Nat) (px : Pixel) : List Host.Cell :=
  memWrite .raster
    (memWrite .raster
      (memWrite .raster
        (memWrite .raster m (rasterAddr x y) px.r)
        (rasterAddr x y + 1) px.g)
      (rasterAddr x y + 2) px.b)
    (rasterAddr x y + 3) px.a

/-- The two pixels of tile byte `k`, left then right (R102). -/
def putPair (m : List Host.Cell) (pal : Palette) (k : Nat) (hi lo : BitVec 4) : List Host.Cell :=
  putPixel (putPixel m (leftColumn k) (pixelRow k) (rgba (palAt pal lo) lo))
    (rightColumn k) (pixelRow k) (rgba (palAt pal hi) hi)

/-- The first `count` little-endian 16-bit values of a byte buffer (R113). -/
def packWords : Nat → List Byte → Option (List (BitVec 16))
  | 0, _ => some []
  | count + 1, lo :: hi :: rest => (packWords count rest).map (le16 lo hi :: ·)
  | _ + 1, _ => none

/-- The palette of a decompressed buffer of at least 32 bytes; none from fewer (R113, R114). -/
def packPalette (buf : List Byte) : Option Palette :=
  match packWords Config.palSize buf with
  | none => none
  | some ws => if h : ws.length = 16 then some ⟨ws.toArray, by simpa using h⟩ else none

end Sys2Proof.Machine
end

