-- ==== Sys2Proof/Machine/Header.lean ====
section
/-! DEFINITION. Machine/Header.lean: the meaning of `HDR` (40_block_header.md). -/

namespace Sys2Proof.Machine

/-- `HDR` with the good tag (R82, R85, R86). A bad tag has no term here: BD's fetch raises `InvalidHeader` for it, before
the length bytes are asked for (R83). -/
def execHdr (n : BitVec 24) (s : State) : Host.Outcome State Fault Refusal :=
  if s.bd.selects = some .hdr then
    if s.bd.holds 4 then
      .next (s.setBd
        { s.bd with
          n := n
          src := s.bd.offset + 4
          dst := 0
          out := []
          phase := if n = 0 then .done else .flag })
    else .next (raise .truncatedInput s)
  else .refused .notSelected

end Sys2Proof.Machine
end

