-- ==== Sys2Proof/Machine/Raster.lean ====
section
/-! DEFINITION. Machine/Raster.lean: the meanings of `PIX2` and `COLOR` (42_tile_raster.md). -/

namespace Sys2Proof.Machine

/-- The conditions of a `PIX2` step (R102). -/
abbrev Trd.decoding (t : Trd) : Prop :=
  t.tphase = .tbusy ∧ t.k.toNat < Config.tileStreamBytes ∧ t.k.toNat < t.tlen

/-- `PIX2`: two pixels, then the stop tests (R102, R107, R108). -/
def execPix2 (hi lo : BitVec 4) (s : State) : Host.Outcome State Fault Refusal :=
  if s.trd.decoding then
    .next (s.setTrd
      { s.trd with
        raster := putPair s.trd.raster s.trd.pal s.trd.k.toNat hi lo
        k := s.trd.k + 1
        tphase :=
          if s.trd.k.toNat + 1 = Config.tileStreamBytes ∨ s.trd.k.toNat + 1 = s.trd.tlen then .tdone
          else .tbusy })
  else .refused .notSelected

/-- `COLOR`: the value `RGBA` returns for this palette value and the index it is called with (R104, R105, R112; log 10). -/
def execColor (_x : BitVec 1) (blue green red : BitVec 5) (s : State) : Host.Outcome State Fault Refusal :=
  .next (s.setConv { s.conv with rgba := rgbaOfFields blue green red s.conv.p })

end Sys2Proof.Machine
end

