-- ==== Sys2Proof/Machine/Stream.lean ====
section
/-! DEFINITION. Machine/Stream.lean: the meanings of `FLAG`, `LIT` and `COPY`, and the `COPY` byte step
(41_stream_units.md). -/

namespace Sys2Proof.Machine

/-- `FLAG` (R87). -/
def execFlag (f : BitVec 8) (s : State) : Host.Outcome State Fault Refusal :=
  if s.bd.selects = some .flag then
    if s.bd.holds 1 then
      .next (s.setBd { s.bd with flags := f, src := s.bd.src + 1, bit := 0, phase := .unit })
    else .next (raise .truncatedInput s)
  else .refused .notSelected

/-- Unit selection and `LIT`, one step (R88, R89, R95). -/
def execLit (d : BitVec 8) (s : State) : Host.Outcome State Fault Refusal :=
  if s.bd.selects = some .lit then
    if s.bd.holds 1 then
      .next (s.setBd
        { s.bd with
          bit := s.bd.bit + 1
          out := memWrite .out s.bd.out s.bd.dst.toNat d
          src := s.bd.src + 1
          dst := s.bd.dst + 1
          phase := nextPhase s.bd.n (s.bd.dst + 1) (s.bd.bit + 1) })
    else .next (raise .truncatedInput s)
  else .refused .notSelected

/-- Unit selection and `COPY` decode, one step (R88, R90): both bytes are asked for before the displacement is tested
(R91, R127). -/
def execCopy (clen : BitVec 5) (cdisp : BitVec 13) (s : State) : Host.Outcome State Fault Refusal :=
  if s.bd.selects = some .copy then
    if s.bd.holds 2 then
      if s.bd.dst.toNat < cdisp.toNat then .next (raise .corruptData s)
      else
        .next (s.setBd
          { s.bd with
            bit := s.bd.bit + 1
            src := s.bd.src + 2
            cdisp := cdisp
            crem := clen
            phase := .copy })
    else .next (raise .truncatedInput s)
  else .refused .notSelected

/-- The conditions of the `COPY` byte step (R92). -/
abbrev Bd.copying (b : Bd) : Prop :=
  b.phase = .copy ∧ 1 ≤ b.crem ∧ b.dst < b.n ∧ b.cdisp.toNat ≤ b.dst.toNat

/-- The `COPY` byte step: one byte, its source index taken from the current `dst` (R92 to R94). -/
def copyByte (s : State) : Host.Outcome State Fault Refusal :=
  if s.bd.copying then
    match memRead .out s.bd.out (s.bd.dst.toNat - s.bd.cdisp.toNat) with
    | none => .fault (.unwrittenOut (s.bd.dst.toNat - s.bd.cdisp.toNat))
    | some v =>
      .next (s.setBd
        { s.bd with
          out := memWrite .out s.bd.out s.bd.dst.toNat v
          dst := s.bd.dst + 1
          crem := s.bd.crem - 1
          phase :=
            if s.bd.dst + 1 = s.bd.n ∨ s.bd.crem - 1 = 0 then
              nextPhase s.bd.n (s.bd.dst + 1) s.bd.bit
            else .copy })
  else .refused .notSelected

end Sys2Proof.Machine
end

