-- ==== Sys2Proof/Machine/Dispatch.lean ====
section
/-! DEFINITION. Machine/Dispatch.lean: one arm per row of spec/opcode_table.json. -/

namespace Sys2Proof.Machine

def exec (i : Instr) (s : State) : Host.Outcome State Fault Refusal :=
  match i with
  | .hdr n => Sys2Proof.Machine.execHdr n s
  | .flag f => Sys2Proof.Machine.execFlag f s
  | .lit d => Sys2Proof.Machine.execLit d s
  | .copy clen cdisp => Sys2Proof.Machine.execCopy clen cdisp s
  | .pix2 hi lo => Sys2Proof.Machine.execPix2 hi lo s
  | .color x blue green red => Sys2Proof.Machine.execColor x blue green red s

end Sys2Proof.Machine
end

