-- ==== Sys2Proof/Machine/HostActions.lean ====
section
/-! DEFINITION. Machine/HostActions.lean: what the host can do to the hardware (R155) and what each action does. -/

namespace Sys2Proof.Machine

/-- `START` (R81); not while BD is busy (R147). -/
def hostStart (bytes : List Byte) (offset : BitVec 32) (s : State) : Host.Outcome State Fault Refusal :=
  if s.bd.status = .busy then .refused .launchWhileBusy
  else if bytes.length < Config.lenBound then .next (launchBd bytes offset s)
  else .refused .inputTooLong

/-- `TSTART` (R100); not while TRD is busy (R147). -/
def hostTstart (bytes : List Byte) (palette : Palette) (s : State) : Host.Outcome State Fault Refusal :=
  if s.trd.tstatus = .tbusy then .refused .launchWhileBusy
  else .next (launchTrd bytes palette s)

/-- Taking BD's response; the engine keeps it until its next launch (R81, R155). -/
def hostTakeBd (s : State) : Host.Outcome State Fault Refusal :=
  match s.bd.response with
  | none => .refused .noResponse
  | some r => .next (s.setHost { s.host with taken := s.host.taken ++ [r] })

/-- Taking TRD's response (R33, R155). -/
def hostTakeTrd (s : State) : Host.Outcome State Fault Refusal :=
  match s.trd.response with
  | none => .refused .noResponse
  | some r => .next (s.setHost { s.host with frames := s.host.frames ++ [r] })

/-- Steps 4 to 6 of R117 on a graphics response and a palette response: with either a failure TRD is not launched
(R116), else the palette is packed and the tile stream passed unchanged (R113 to R115). -/
def launchSprite : BdResponse → BdResponse → State → Host.Outcome State Fault Refusal
  | .ok gfx, .ok pal, s =>
    match packPalette pal with
    | none => .refused .shortPalette
    | some palette => hostTstart gfx palette s
  | .ok _, .err _, s => .next s
  | .err _, .ok _, s => .next s
  | .err _, .err _, s => .next s

/-- The sprite launch from the responses the host names as graphics and as palette, whichever was taken first; the host
keeps both buffers (R117, R148; log 16). -/
def hostTstartSprite (gfx pal : Nat) (s : State) : Host.Outcome State Fault Refusal :=
  match s.host.taken[gfx]?, s.host.taken[pal]? with
  | some rg, some rp => launchSprite rg rp s
  | some _, none => .refused .noResponse
  | none, _ => .refused .noResponse

/-- A call of the colour conversion: the value is decoded as a `COLOR` and converted (R104, R112; log 10). -/
def hostConvert (c : BitVec 16) (p : BitVec 4) (s : State) : Host.Outcome State Fault Refusal :=
  exec (decodeColor c) (s.setConv { s.conv with p := p })

/-- The host's move (R155). -/
def hostAct (a : HostAction) (s : State) : Host.Outcome State Fault Refusal :=
  match a with
  | .start bytes offset => hostStart bytes offset s
  | .tstart bytes palette => hostTstart bytes palette s
  | .takeBd => hostTakeBd s
  | .takeTrd => hostTakeTrd s
  | .tstartSprite gfx pal => hostTstartSprite gfx pal s
  | .convert c p => hostConvert c p s
  | .reset => .next (resetEngines s)

end Sys2Proof.Machine
end

