-- ==== Sys2Proof/Machine/Engine.lean ====
section
/-! DEFINITION. Machine/Engine.lean: fetching a unit, one step of each engine, whose move it is, and placing a unit where
the next step fetches. -/

namespace Sys2Proof.Machine

/-- What BD's fetch finds at its cursor. -/
inductive Fetched where
  /-- A unit. -/
  | unit (i : Instr)
  /-- Bytes that raise a failure. -/
  | failure (e : Failure)
  /-- A byte that was never loaded. -/
  | unloaded (a : Nat)
  deriving DecidableEq, Repr

/-- The unit of a kind at BD's cursor: the bytes below `LEN`, decoded (R10, R70, R83, R122, R127). -/
def fetchBd (b : Bd) (kind : UnitKind) : Fetched :=
  match inBytes .input b.input b.len.toNat b.cursor kind.size with
  | .error a => .unloaded a
  | .ok bytes =>
    match decode kind bytes with
    | .ok (i, _) => .unit i
    | .error r => .failure (failureOf r)

/-- Fetch a unit and run it, or raise what its bytes raise. -/
def runUnit (kind : UnitKind) (s : State) : Host.Outcome State Fault Refusal :=
  match fetchBd s.bd kind with
  | .unit i => exec i s
  | .failure e => .next (raise e s)
  | .unloaded a => .fault (.unloadedInput a)

/-- One step of BD (R24). In `IDLE`, `DONE` and `ERR` no rule is enabled and nothing changes (R130, R154). -/
def bdStep (s : State) : Host.Outcome State Fault Refusal :=
  match s.bd.phase with
  | .idle => .next s
  | .done => .next s
  | .err => .next s
  | .copy => copyByte s
  | .hdr | .flag | .unit =>
    match s.bd.selects with
    | none => .refused .notSelected
    | some kind => runUnit kind s

/-- One step of TRD (R32, R102). In `TIDLE` and `TDONE` no rule is enabled and nothing changes (R154). -/
def trdStep (s : State) : Host.Outcome State Fault Refusal :=
  match s.trd.tphase with
  | .tidle => .next s
  | .tdone => .next s
  | .tbusy =>
    if s.trd.decoding then
      match memRead .tile s.trd.tile s.trd.k.toNat with
      | none => .fault (.unloadedTile s.trd.k.toNat)
      | some v => exec (decodePix2 v) s
    else .refused .notSelected

/-- The move at the head of the agenda, already taken off it (log 5). -/
def perform (m : Move) (s : State) : Host.Outcome State Fault Refusal :=
  match m with
  | .host a => hostAct a s
  | .bd => bdStep s
  | .trd => trdStep s
  | .awaitBd => if s.bd.status = .busy then bdStep (s.setAgenda (.awaitBd :: s.agenda)) else .next s
  | .awaitTrd => if s.trd.tstatus = .tbusy then trdStep (s.setAgenda (.awaitTrd :: s.agenda)) else .next s

/-- With no move left: BD while it is busy, then TRD, then nothing changes (R154; log 5). -/
def freeRun (s : State) : Host.Outcome State Fault Refusal :=
  if s.bd.status = .busy then bdStep s else trdStep s

/-- One step of the machine. -/
def turn (s : State) : Host.Outcome State Fault Refusal :=
  match s.agenda with
  | [] => freeRun s
  | m :: rest => perform m (s.setAgenda rest)

/-- BD at the start of a launch whose IN is these bytes, `OFFSET` 0 (R81). -/
def placeHeader (bytes : List Byte) (s : State) : State :=
  launchBd bytes 0 (s.setAgenda [])

/-- BD about to fetch from these bytes of IN, in a phase, with a flag byte and room in OUT. -/
def placeStream (bytes : List Byte) (phase : Phase) (flags : BitVec 8) (dst n : BitVec 24) (s : State) : State :=
  (s.setAgenda []).setBd
    { s.bd with
      input := memOfBytes 0 bytes
      len := BitVec.ofNat 32 bytes.length
      src := 0
      flags := flags
      bit := 0
      dst := dst
      n := n
      phase := phase
      errcode := .noError }

/-- A table row's word placed where the next step fetches it (log 9, log 11). -/
def placeWord (s : State) (nbits w : Nat) : State :=
  match tableKind nbits with
  | some .hdr => placeHeader (bytesBE 4 w) s
  | some .flag => placeStream (bytesBE 1 w) .flag s.bd.flags 0 1 s
  | some .copy => placeStream (bytesBE 2 w) .unit 0x80 4096 4097 s
  | some .lit => s
  | some .pix2 => s
  | some .color => s
  | none => s

end Sys2Proof.Machine
end

