-- ==== Sys2Proof/Machine/Step.lean ====
section
/-! DEFINITION. Machine/Step.lean: the step of the machine, and a table row's word placed for the next step. -/

namespace Sys2Proof.Machine

/-- One step: the next move of the agenda, or the engines running on. -/
def step (s : State) : Host.Outcome State Fault Refusal := turn s

/-- The state whose very next step fetches and runs the word (log 9, log 11). -/
def State.withFetchWord (s : State) (nbits w : Nat) : State := placeWord s nbits w

end Sys2Proof.Machine
end

