-- ==== Sys2Proof/Machine/BigStep.lean ====
section
/-! DEFINITION. Machine/BigStep.lean: each engine as one total function of its arguments (R99, R110), beside the step
machine. -/

namespace Sys2Proof.Machine

/-- The eight flag bits of a flag byte, most significant first (R46, R63). -/
def flagBits (f : Byte) : List Bool := (List.range 8).map (flagAt f)

/-- The byte loop of a back-reference: at most `m` bytes, stopping at length `n` (R92 to R94, R99). -/
def copyLoop (n cdisp : Nat) : Nat → List Byte → List Byte
  | 0, out => out
  | m + 1, out =>
    if n ≤ out.length then out
    else copyLoop n cdisp m (out ++ [out.getD (out.length - cdisp) 0])

/-- The flag, literal and copy stream: `fs` are the flag bits still to be used, `out` the bytes produced (R87 to R95, R99). -/
def inflate (n : Nat) : List Byte → List Bool → List Byte → BdResponse
  | [], _, out => if n ≤ out.length then .ok out else .err .truncatedInput
  | v :: rest, fs, out =>
    if n ≤ out.length then .ok out
    else
      match fs with
      | [] => inflate n rest (flagBits v) out
      | false :: fs' => inflate n rest fs' (out ++ [v])
      | true :: fs' =>
        match rest with
        | [] => .err .truncatedInput
        | b2 :: rest' =>
          if out.length < (copyDisplacement v b2).toNat then .err .corruptData
          else
            inflate n rest' fs' (copyLoop n (copyDisplacement v b2).toNat (copyLength v).toNat out)

/-- `Decompress(IN, LEN, OFFSET)` (R99), `LEN` being the number of bytes of IN. -/
def decompress (bytes : List Byte) (offset : Nat) : BdResponse :=
  match bytes.drop offset with
  | [] => .err .truncatedInput
  | t :: rest =>
    if t = Config.tag then
      match rest with
      | l0 :: l1 :: l2 :: stream => inflate (le24 l0 l1 l2).toNat stream [] []
      | _ => .err .truncatedInput
    else .err .invalidHeader

/-- The tile bytes from index `k` on, each putting its two pixels, none at 2048 or above (R108, R110). -/
def paintTiles (pal : Palette) : Nat → List Byte → List Host.Cell → List Host.Cell
  | _, [], m => m
  | k, v :: rest, m =>
    if k < Config.tileStreamBytes then
      paintTiles pal (k + 1) rest (putPair m pal k (v.extractLsb' 4 4) (v.extractLsb' 0 4))
    else m

/-- `DecodeTiles(TILE, TLEN, palette)` (R110), `TLEN` being the number of bytes of TILE. -/
def decodeTiles (bytes : List Byte) (pal : Palette) : List Host.Cell := paintTiles pal 0 bytes []

end Sys2Proof.Machine
end

