-- ==== Sys2Proof/Safety.lean ====
section
/-! DEFINITION. Safety.lean: runs of the step, the sprite sequence as moves, what an engine has left to do, and the invariants
of R37, R38 and R111 in the terms claims use. -/

namespace Sys2Proof.Machine

/-- `k` steps of the machine. -/
def run : Nat → State → Host.Outcome State Fault Refusal
  | 0, s => .next s
  | k + 1, s =>
    match step s with
    | .next t => run k t
    | .fault f => .fault f
    | .refused r => .refused r

/-- `k` steps of BD alone. -/
def bdRun : Nat → State → Host.Outcome State Fault Refusal
  | 0, s => .next s
  | k + 1, s =>
    match bdStep s with
    | .next t => bdRun k t
    | .fault f => .fault f
    | .refused r => .refused r

/-- The intended sequence as moves: two blocks of `bytes` launched one after the other, each response taken when it is
there, then the sprite launch from the responses at these places (R117, R148). -/
def spriteMoves (bytes : List Byte) (first second : BitVec 32) (gfx pal : Nat) : List Move :=
  [.host (.start bytes first), .awaitBd, .host .takeBd,
   .host (.start bytes second), .awaitBd, .host .takeBd, .host (.tstartSprite gfx pal), .awaitTrd]

/-- A measure of what BD still has to do: 0 at rest, and no less than the steps to come (R98). -/
def Bd.stepsLeft (b : Bd) : Nat :=
  match b.phase with
  | .idle => 0
  | .hdr => 3 * 2 ^ 24
  | .flag => 3 * (b.n.toNat - b.dst.toNat)
  | .unit => 3 * (b.n.toNat - b.dst.toNat) - 1
  | .copy => 3 * (b.n.toNat - b.dst.toNat) - 2
  | .done => 0
  | .err => 0

/-- The tile bytes TRD still has to decode, 0 at rest (R109). -/
def Trd.stepsLeft (t : Trd) : Nat :=
  match t.tphase with
  | .tidle => 0
  | .tbusy => min t.tlen Config.tileStreamBytes - t.k.toNat
  | .tdone => 0

/-- A step that does not stop with a fault. -/
def SafeStep (s : State) : Prop := ∀ f, step s ≠ .fault f

/-- BD is inside a block, past its header: the phases of R37. -/
abbrev Bd.Streaming (b : Bd) : Prop := b.phase = .flag ∨ b.phase = .unit ∨ b.phase = .copy

/-- Every address below a length has a value. -/
abbrev Loaded (sp : Space) (m : List Host.Cell) (len : Nat) : Prop :=
  ∀ a < len, (memRead sp m a).isSome

/-- Exactly the addresses below a number have been written, each once (R37 I3). -/
abbrev WrittenUpTo (m : List Host.Cell) (n : Nat) : Prop := m.map Prod.fst = List.range n

/-- BD's invariant: I1 to I6 of R37 and the widths of R38, with the canonical form and the loading of the spaces. -/
abbrev Bd.Inv (b : Bd) : Prop :=
  (MemWf .input b.input ∧ Loaded .input b.input b.len.toNat ∧ MemWf .out b.out) ∧
  (b.Streaming →
    b.dst < b.n ∧ b.offset.toNat + 4 ≤ b.src.toNat ∧ b.src ≤ b.len ∧
      WrittenUpTo b.out b.dst.toNat ∧ b.errcode = .noError) ∧
  (b.phase = .unit → b.bit ≤ 7) ∧
  (b.phase = .copy →
    b.bit ≤ 8 ∧ 1 ≤ b.crem ∧ b.crem ≤ 18 ∧ 1 ≤ b.cdisp ∧ b.cdisp ≤ 4096 ∧
      b.cdisp.toNat ≤ b.dst.toNat) ∧
  (b.phase = .done → b.dst = b.n ∧ WrittenUpTo b.out b.n.toNat ∧ b.errcode = .noError) ∧
  (b.phase = .err → b.errcode ≠ .noError) ∧
  (b.phase = .idle ∨ b.phase = .hdr → b.errcode = .noError)

/-- TRD's invariant: the canonical form, the raster's extent (R43), and `k` (R31, R102, R109). -/
abbrev Trd.Inv (t : Trd) : Prop :=
  (MemWf .tile t.tile ∧ Loaded .tile t.tile t.tlen) ∧
  (MemWf .raster t.raster ∧ ∀ c ∈ t.raster, c.1 < Config.rasterBytes) ∧
  (t.tphase = .tbusy → t.k.toNat < Config.tileStreamBytes ∧ t.k.toNat < t.tlen) ∧
  (t.tphase = .tdone → t.k.toNat = min t.tlen Config.tileStreamBytes)

/-- Every alpha byte of the raster is 0 or 255 and every colour byte a multiple of 8 (R79, R111). A listed byte is never
0, so a listed alpha byte is 255. -/
abbrev RasterLegal (m : List Host.Cell) : Prop :=
  ∀ c ∈ m, if c.1 % 4 = 3 then c.2 = Config.alphaOpaque else c.2.toNat % 8 = 0

/-- The machine's invariant. -/
abbrev State.Inv (s : State) : Prop := s.bd.Inv ∧ s.trd.Inv

end Sys2Proof.Machine
end

