-- ==== Sys2Proof/Certificates/Slice0/Obligations.lean ====
section
/-! DEFINITION. Certificates/Slice0/Obligations.lean: what the spec says the machine does, stated for the provers. -/

open Sys2Proof Sys2Proof.Machine

/-! ### Reset, launches and responses -/

/-- After reset both engines are idle, no error is reported and no response exists (10_state.md section 7, decision D11). -/
def Obligations.ResetLeavesBothEnginesIdle : Prop :=
  State.reset.bd.status = .idle ∧ State.reset.bd.errcode.bits = 0 ∧ State.reset.trd.tstatus = .tidle ∧
    State.reset.bd.response = none ∧ State.reset.trd.response = none

/-- The host's reset returns both engines to their state after reset, whatever they were doing, and leaves no response
(decision D11); what the host holds stays (log 14). -/
def Obligations.HostResetAbandonsEveryLaunch : Prop :=
  ∀ (s : State) (rest : List Move), s.agenda = .host .reset :: rest →
    ∃ t, step s = .next t ∧ t.bd = State.reset.bd ∧ t.trd = State.reset.trd ∧ t.conv = State.reset.conv ∧
      t.bd.response = none ∧ t.trd.response = none ∧ t.host = s.host ∧ t.agenda = rest

/-- START holds its arguments, clears ERRCODE and makes the phase HDR; nothing else of the machine changes
(decisions D1, D9, D21). -/
def Obligations.StartHoldsTheArgumentsAndClearsErrcode : Prop :=
  ∀ (s : State) (bytes : List Byte) (offset : BitVec 32) (rest : List Move),
    s.agenda = .host (.start bytes offset) :: rest → s.bd.status ≠ .busy → bytes.length < 2 ^ 32 →
    ∃ t, step s = .next t ∧ t.bd.len.toNat = bytes.length ∧
      (∀ a, memRead .input t.bd.input a = bytes[a]?) ∧
      t.bd = { s.bd with input := t.bd.input, len := t.bd.len, offset := offset,
                         errcode := .noError, phase := .hdr } ∧
      t.trd = s.trd ∧ t.conv = s.conv ∧ t.host = s.host ∧ t.agenda = rest ∧ t.draws = s.draws

/-- TSTART loads the sixteen palette registers, zeroes every byte of RASTER and `k`, and is done at once on an empty
stream (decision D13). -/
def Obligations.TstartLoadsThePaletteAndClearsTheRaster : Prop :=
  ∀ (s : State) (bytes : List Byte) (palette : Palette) (rest : List Move),
    s.agenda = .host (.tstart bytes palette) :: rest → s.trd.tstatus ≠ .tbusy →
    ∃ t, step s = .next t ∧ t.trd.pal = palette ∧ (∀ a, memRead .raster t.trd.raster a = some 0) ∧
      t.trd.k = 0 ∧ t.trd.tlen = bytes.length ∧ (∀ a, memRead .tile t.trd.tile a = bytes[a]?) ∧
      t.trd.tphase = (if bytes.length = 0 then .tdone else .tbusy) ∧
      t.bd = s.bd ∧ t.conv = s.conv ∧ t.host = s.host ∧ t.agenda = rest

/-- A launch of a busy engine has no meaning and is refused (decision D9, log 7): START of BD, TSTART of TRD, and a sprite
launch of TRD from two good responses. -/
def Obligations.LaunchOfABusyEngineIsRefused : Prop :=
  (∀ (s : State) (bytes : List Byte) (offset : BitVec 32) (rest : List Move),
    s.agenda = .host (.start bytes offset) :: rest → s.bd.status = .busy →
      step s = .refused .launchWhileBusy) ∧
  (∀ (s : State) (bytes : List Byte) (palette : Palette) (rest : List Move),
    s.agenda = .host (.tstart bytes palette) :: rest → s.trd.tstatus = .tbusy →
      step s = .refused .launchWhileBusy) ∧
  (∀ (s : State) (g p : Nat) (gfx palBuf : List Byte) (rest : List Move),
    s.agenda = .host (.tstartSprite g p) :: rest → s.host.taken[g]? = some (.ok gfx) →
      s.host.taken[p]? = some (.ok palBuf) → 32 ≤ palBuf.length → s.trd.tstatus = .tbusy →
      step s = .refused .launchWhileBusy)

/-- In DONE the response is exactly the N bytes of OUT, with no error code. -/
def Obligations.CompletedBlockAnswersItsWholeOutput : Prop :=
  ∀ b : Bd, b.Inv → b.phase = .done →
    b.status = .done ∧ b.errcode = .noError ∧ b.dst = b.n ∧
      ∃ buf : List Byte, b.response = some (.ok buf) ∧ buf.length = b.n.toNat ∧
        ∀ j < b.n.toNat, memRead .out b.out j = buf[j]?

/-- In TDONE, TSTATUS reads TDONE and the response is the 16384 bytes of RASTER, in address order; there always is one. -/
def Obligations.CompletedDecodeAnswersItsWholeRaster : Prop :=
  ∀ t : Trd, t.tphase = .tdone →
    t.tstatus = .tdone ∧
      ∃ buf : List Byte, t.response = some buf ∧ buf.length = 16384 ∧
        ∀ j < 16384, memRead .raster t.raster j = buf[j]?

/-- What the host reads of the engines: STATUS by the phase, TSTATUS the value of `tphase`, the numbers of ERRCODE, and no
response but in DONE, ERR or TDONE (10_state.md sections 4 and 5, 70_reset_and_hazards.md section 2, decisions D1 and D4). -/
def Obligations.HostReadsStatusAndErrcode : Prop :=
  (∀ b : Bd,
    (b.status = .idle ↔ b.phase = .idle) ∧
    (b.status = .busy ↔ b.phase = .hdr ∨ b.phase = .flag ∨ b.phase = .unit ∨ b.phase = .copy) ∧
    (b.status = .done ↔ b.phase = .done) ∧ (b.status = .err ↔ b.phase = .err) ∧
    (b.phase ≠ .done → b.phase ≠ .err → b.response = none)) ∧
  (∀ t : Trd, t.tstatus = t.tphase ∧ (t.tphase ≠ .tdone → t.response = none)) ∧
  ErrCode.noError.bits = 0 ∧ ErrCode.invalidHeader.bits = 1 ∧ ErrCode.truncatedInput.bits = 2 ∧
    ErrCode.corruptData.bits = 3

/-- Taking a response hands it to the host and changes neither engine; where there is none the host is refused
(10_state.md section 4, decisions D7, D21; log 16). -/
def Obligations.TakingAResponseLeavesTheEngines : Prop :=
  ∀ (s : State) (rest : List Move),
    (s.agenda = .host .takeBd :: rest →
      (∀ r, s.bd.response = some r →
        step s = .next ((s.setAgenda rest).setHost { s.host with taken := s.host.taken ++ [r] })) ∧
      ((s.bd.status = .busy ∨ s.bd.status = .idle) → step s = .refused .noResponse)) ∧
    (s.agenda = .host .takeTrd :: rest →
      (∀ r, s.trd.response = some r → r.length = 16384 ∧
        step s = .next ((s.setAgenda rest).setHost { s.host with frames := s.host.frames ++ [r] })) ∧
      (s.trd.tstatus ≠ .tdone → step s = .refused .noResponse))

/-- With nothing on the agenda and both engines at rest nothing changes: no rule is enabled then (70_reset_and_hazards.md
section 4, decision D8). That this is a step, to the same state, is deduced (log 19), and the agenda is the model's choice
(log 5). -/
def Obligations.MachineAtRestDoesNotChange : Prop :=
  ∀ s : State, s.agenda = [] → s.bd.status ≠ .busy → s.trd.tstatus ≠ .tbusy → step s = .next s

/-! ### Encoding -/

/-- Every well-formed unit decodes back from its bytes, whatever follows them. -/
def Obligations.DecodingAnEncodedUnitGivesItBack : Prop :=
  ∀ (i : Instr) (rest : List Byte), i.wf = true → decode i.kind (encode i ++ rest) = .ok (i, rest)

/-- A decoded unit is of the kind asked for, well formed, and its encoding is the bytes consumed: each word has one
meaning at its position. -/
def Obligations.DecodedUnitsReencodeToTheirBytes : Prop :=
  ∀ (kind : UnitKind) (bytes rest : List Byte) (i : Instr), decode kind bytes = .ok (i, rest) →
    i.kind = kind ∧ i.wf = true ∧ bytes = encode i ++ rest

/-- Bytes are no unit only when one is missing or a header's tag is not 0x10, and the tag is tested before the length
bytes are missed (30_encoding.md section 5, decision D5). -/
def Obligations.OnlyShortOrMistaggedBytesAreRejected : Prop :=
  ∀ (kind : UnitKind) (bytes : List Byte),
    (decode kind bytes = .error .missingByte ↔
      bytes.length < kind.size ∧ (kind = .hdr → ∀ t, bytes.head? = some t → t = 0x10)) ∧
    (decode kind bytes = .error .tagMismatch ↔ kind = .hdr ∧ ∃ t, bytes.head? = some t ∧ t ≠ 0x10)

/-- Words written out bit by bit from the encodings decode to the units they stand for. -/
def Obligations.WordsWrittenFromTheSpecDecode : Prop :=
  decode .hdr [0b00010000, 0x56, 0x34, 0x12] = .ok (.hdr 0x123456, []) ∧
  decode .flag [0b01000000] = .ok (.flag 0x40, []) ∧
  decode .lit [0b01000001] = .ok (.lit 0x41, []) ∧
  decode .copy [0b10100001, 0b00100011] = .ok (.copy 13 292, []) ∧
  decode .pix2 [0b00100001] = .ok (.pix2 2 1, []) ∧
  decode .color [0b00110100, 0b00010010] = .ok (.color 0 4 17 20, [])

/-- The whole tag byte is compared with 0x10; the three length bytes are read little-endian. -/
def Obligations.HeaderIsATagAndALittleEndianLength : Prop :=
  ∀ (t l0 l1 l2 : Byte) (more : List Byte),
    (t ≠ 0x10 → decode .hdr (t :: l0 :: l1 :: l2 :: more) = .error .tagMismatch) ∧
    (t = 0x10 → ∃ n : BitVec 24, decode .hdr (t :: l0 :: l1 :: l2 :: more) = .ok (.hdr n, more) ∧
      n.toNat = l0.toNat + 256 * l1.toNat + 65536 * l2.toNat)

/-- The length is the first byte's high nibble plus 3; the displacement is its low nibble and the second byte, plus 1. -/
def Obligations.CopyWordGivesLengthAndDisplacement : Prop :=
  ∀ (b1 b2 : Byte) (more : List Byte), ∃ (clen : BitVec 5) (cdisp : BitVec 13),
    decode .copy (b1 :: b2 :: more) = .ok (.copy clen cdisp, more) ∧
    clen.toNat = b1.toNat / 16 + 3 ∧ cdisp.toNat = b1.toNat % 16 * 256 + b2.toNat + 1 ∧
    3 ≤ clen.toNat ∧ clen.toNat ≤ 18 ∧ 1 ≤ cdisp.toNat ∧ cdisp.toNat ≤ 4096

/-- The low nibble of a tile byte is the left pixel's index; a palette value holds red, green and blue from its low bits
up, and its low byte stands first (the field tables of 30_encoding.md section 6, 20_memory.md section 2). -/
def Obligations.TileBytesAndColoursSplitIntoTheirFields : Prop :=
  (∀ (v : Byte) (more : List Byte), ∃ hi lo : BitVec 4,
    decode .pix2 (v :: more) = .ok (.pix2 hi lo, more) ∧ lo.toNat = v.toNat % 16 ∧ hi.toNat = v.toNat / 16) ∧
  (∀ (b0 b1 : Byte) (more : List Byte), ∃ (x : BitVec 1) (blue green red : BitVec 5),
    decode .color (b0 :: b1 :: more) = .ok (.color x blue green red, more) ∧
    b0.toNat + 256 * b1.toNat =
      red.toNat + 32 * green.toNat + 1024 * blue.toNat + 32768 * x.toNat)

/-! ### A step runs the decoded unit -/

/-- When the bytes at BD's cursor decode to a unit of the kind its position selects, BD's step is exec of that unit, and
so is the machine's step when BD has the move; the agenda is what the move leaves (41_stream_units.md sections 1 to 3).
When BD has the move (an empty agenda, a move of BD, a wait for BD) is the model's choice, log 5. -/
def Obligations.StepRunsTheDecodedStreamUnit : Prop :=
  ∀ (s : State) (kind : UnitKind) (bytes : List Byte) (i : Instr),
    s.bd.selects = some kind → bytes.length = kind.size → s.bd.cursor + kind.size ≤ s.bd.len.toNat →
    (∀ j < kind.size, memRead .input s.bd.input (s.bd.cursor + j) = bytes[j]?) →
    decode kind bytes = .ok (i, []) →
    bdStep s = exec i s ∧
    (s.agenda = [] → step s = exec i s) ∧
    (∀ rest, s.agenda = .bd :: rest → step s = exec i (s.setAgenda rest)) ∧
    (∀ rest, s.agenda = .awaitBd :: rest → step s = exec i s)

/-- While TRD decodes, its step is exec of the tile byte at `k` (42_tile_raster.md section 3); a call of the conversion is
exec of its value. When TRD has the move (an empty agenda with BD at rest, a move of TRD, a wait for TRD) is the model's
choice, log 5; that the host's call latches the index and runs the unit is the model's choice, log 10. -/
def Obligations.StepRunsTileBytesAndColourCalls : Prop :=
  (∀ (s : State) (v : Byte), s.trd.decoding → memRead .tile s.trd.tile s.trd.k.toNat = some v →
    trdStep s = exec (decodePix2 v) s ∧
    (s.agenda = [] → s.bd.status ≠ .busy → step s = exec (decodePix2 v) s) ∧
    (∀ rest, s.agenda = .trd :: rest → step s = exec (decodePix2 v) (s.setAgenda rest)) ∧
    (∀ rest, s.agenda = .awaitTrd :: rest → step s = exec (decodePix2 v) s)) ∧
  (∀ (s : State) (c : BitVec 16) (p : BitVec 4) (rest : List Move),
    s.agenda = .host (.convert c p) :: rest →
    step s = exec (decodeColor c) ((s.setAgenda rest).setConv { s.conv with p := p }))

/-- A unit asked for where the engine's registers do not select it is refused, and so is a step of a busy engine whose
registers meet no rule's conditions (the model's choice, log 12). -/
def Obligations.UnitsOutOfPositionAreRefused : Prop :=
  (∀ (s : State) (i : Instr), (i.kind ≠ .pix2 ∧ i.kind ≠ .color) → s.bd.selects ≠ some i.kind →
    exec i s = .refused .notSelected) ∧
  (∀ (s : State) (hi lo : BitVec 4), ¬ s.trd.decoding → exec (.pix2 hi lo) s = .refused .notSelected) ∧
  (∀ s : State,
    (s.bd.phase = .flag ∧ s.bd.n ≤ s.bd.dst ∨ s.bd.phase = .unit ∧ (s.bd.n ≤ s.bd.dst ∨ 8 ≤ s.bd.bit) ∨
      s.bd.phase = .copy ∧
        (s.bd.crem = 0 ∨ s.bd.n ≤ s.bd.dst ∨ s.bd.dst.toNat < s.bd.cdisp.toNat)) →
    bdStep s = .refused .notSelected) ∧
  (∀ s : State, s.trd.tphase = .tbusy → (2048 ≤ s.trd.k.toNat ∨ s.trd.tlen ≤ s.trd.k.toNat) →
    trdStep s = .refused .notSelected)

/-! ### The stream units -/

/-- A good header sets N and the cursors, creates OUT with no byte written, and completes at once when N is 0
(40_block_header.md section 2). That an OUT byte not yet written has no value follows decision D22 and is the
model's choice, log 2. -/
def Obligations.HeaderSetsTheLengthAndTheCursors : Prop :=
  ∀ (s : State) (n : BitVec 24), s.bd.phase = .hdr → s.bd.offset.toNat + 3 < s.bd.len.toNat →
    ∃ t, exec (.hdr n) s = .next t ∧
      t.bd.src.toNat = s.bd.offset.toNat + 4 ∧ (∀ a, memRead .out t.bd.out a = none) ∧
      t.bd = { s.bd with n := n, src := t.bd.src, dst := 0, out := t.bd.out,
                         phase := if n = 0 then .done else .flag } ∧
      (n = 0 → t.bd.response = some (.ok [])) ∧
      t.trd = s.trd ∧ t.conv = s.conv ∧ t.host = s.host ∧ t.agenda = s.agenda ∧ t.draws = s.draws

/-- The order of the header checks (decision D5): tag byte missing, tag wrong, length byte missing, accepted. -/
def Obligations.HeaderChecksComeInOrder : Prop :=
  ∀ s : State, s.bd.phase = .hdr → Loaded .input s.bd.input s.bd.len.toNat →
    (s.bd.len.toNat ≤ s.bd.offset.toNat →
      ∃ t, bdStep s = .next t ∧ t.bd.phase = .err ∧ t.bd.response = some (.err .truncatedInput)) ∧
    (∀ v, s.bd.offset.toNat < s.bd.len.toNat → memRead .input s.bd.input s.bd.offset.toNat = some v →
      (v ≠ 0x10 →
        ∃ t, bdStep s = .next t ∧ t.bd.phase = .err ∧ t.bd.response = some (.err .invalidHeader)) ∧
      (v = 0x10 → s.bd.len.toNat ≤ s.bd.offset.toNat + 3 →
        ∃ t, bdStep s = .next t ∧ t.bd.phase = .err ∧ t.bd.response = some (.err .truncatedInput)) ∧
      (v = 0x10 → s.bd.offset.toNat + 3 < s.bd.len.toNat →
        ∃ t, bdStep s = .next t ∧ t.bd.phase ≠ .err ∧ t.bd.errcode = s.bd.errcode))

/-- A flag byte is loaded from `src`, `src` moves by one, `bit` is 0 and a unit is next; a missing one raises
TruncatedInput; where no output byte is owed no flag byte is due. -/
def Obligations.FlagByteIsLoadedAndOpensItsUnits : Prop :=
  (∀ (s : State) (f : BitVec 8), s.bd.phase = .flag → s.bd.dst < s.bd.n → s.bd.src < s.bd.len →
    exec (.flag f) s =
      .next (s.setBd { s.bd with flags := f, src := s.bd.src + 1, bit := 0, phase := .unit }) ∧
    (memRead .input s.bd.input s.bd.src.toNat = some f → bdStep s = exec (.flag f) s)) ∧
  (∀ s : State, s.bd.phase = .flag → s.bd.dst < s.bd.n → s.bd.len ≤ s.bd.src →
    ∃ t, bdStep s = .next t ∧ t.bd.phase = .err ∧ t.bd.errcode = .truncatedInput ∧ t.bd.out = s.bd.out) ∧
  (∀ s : State, s.bd.n ≤ s.bd.dst → s.bd.selects ≠ some .flag)

/-- A flag bit of 0 selects a literal: the byte at `src` is written at `dst`, both cursors and `bit` move by one, and the sequencing
tests completion before the flag byte's end; a missing byte raises TruncatedInput and writes nothing. -/
def Obligations.LiteralIsCopiedToTheOutput : Prop :=
  (∀ (s : State) (d : BitVec 8), s.bd.phase = .unit → s.bd.dst < s.bd.n → s.bd.bit ≤ 7 →
    s.bd.flags.getLsbD (7 - s.bd.bit.toNat) = false → s.bd.src < s.bd.len →
    (memRead .input s.bd.input s.bd.src.toNat = some d → bdStep s = exec (.lit d) s) ∧
    ∃ t, exec (.lit d) s = .next t ∧
      memRead .out t.bd.out s.bd.dst.toNat = some d ∧
      (∀ a, a ≠ s.bd.dst.toNat → memRead .out t.bd.out a = memRead .out s.bd.out a) ∧
      t.bd = { s.bd with
        bit := s.bd.bit + 1, src := s.bd.src + 1, dst := s.bd.dst + 1, out := t.bd.out,
        phase :=
          if s.bd.n ≤ s.bd.dst + 1 then .done else if s.bd.bit + 1 = 8 then .flag else .unit } ∧
      t.trd = s.trd ∧ t.conv = s.conv ∧ t.host = s.host ∧ t.agenda = s.agenda ∧ t.draws = s.draws) ∧
  (∀ s : State, s.bd.phase = .unit → s.bd.dst < s.bd.n → s.bd.bit ≤ 7 →
    s.bd.flags.getLsbD (7 - s.bd.bit.toNat) = false → s.bd.len ≤ s.bd.src →
    ∃ t, bdStep s = .next t ∧ t.bd.phase = .err ∧ t.bd.errcode = .truncatedInput ∧ t.bd.out = s.bd.out)

/-- A flag bit of 1 selects a back-reference: with both bytes present and a displacement into the bytes already produced,
its length and displacement are loaded and copying begins, no byte written yet; the two bytes at `src` are the ones
decoded (41_stream_units.md section 3). -/
def Obligations.CopyDecodeLoadsTheCopyRegisters : Prop :=
  ∀ (s : State) (clen : BitVec 5) (cdisp : BitVec 13), s.bd.phase = .unit → s.bd.dst < s.bd.n →
    s.bd.bit ≤ 7 → s.bd.flags.getLsbD (7 - s.bd.bit.toNat) = true →
    s.bd.src.toNat + 1 < s.bd.len.toNat → cdisp.toNat ≤ s.bd.dst.toNat →
    exec (.copy clen cdisp) s =
      .next (s.setBd { s.bd with
        bit := s.bd.bit + 1, src := s.bd.src + 2, cdisp := cdisp, crem := clen, phase := .copy }) ∧
    (∀ b1 b2, memRead .input s.bd.input s.bd.src.toNat = some b1 →
      memRead .input s.bd.input (s.bd.src.toNat + 1) = some b2 →
      bdStep s = exec (.copy (copyLength b1) (copyDisplacement b1 b2)) s)

/-- A displacement beyond the bytes produced raises CorruptData: no byte is written and no OUT byte is read; any smaller
one is legal, `dst` itself included; at `dst` 0 every back-reference is corrupt. The length plays no part. -/
def Obligations.DisplacementBeyondTheOutputIsCorruptData : Prop :=
  ∀ (s : State) (clen : BitVec 5) (cdisp : BitVec 13), s.bd.phase = .unit → s.bd.dst < s.bd.n →
    s.bd.bit ≤ 7 → s.bd.flags.getLsbD (7 - s.bd.bit.toNat) = true →
    s.bd.src.toNat + 1 < s.bd.len.toNat →
    (s.bd.dst.toNat < cdisp.toNat →
      ∃ t, exec (.copy clen cdisp) s = .next t ∧ t.bd.phase = .err ∧ t.bd.errcode = .corruptData ∧
        t.bd.response = some (.err .corruptData) ∧ t.bd.out = s.bd.out) ∧
    (cdisp.toNat ≤ s.bd.dst.toNat →
      ∃ t, exec (.copy clen cdisp) s = .next t ∧ t.bd.phase = .copy ∧ t.bd.errcode = s.bd.errcode) ∧
    (s.bd.dst = 0 → (Instr.copy clen cdisp).wf = true → s.bd.dst.toNat < cdisp.toNat)

/-- One byte step of a back-reference: the byte `cdisp` back from the current `dst` is written at `dst`, and the copy ends
when OUT is full or the length is used up. -/
def Obligations.CopyByteStepCopiesOneByte : Prop :=
  ∀ (s : State) (v : Byte), s.bd.phase = .copy → 1 ≤ s.bd.crem → s.bd.dst < s.bd.n →
    s.bd.cdisp.toNat ≤ s.bd.dst.toNat →
    memRead .out s.bd.out (s.bd.dst.toNat - s.bd.cdisp.toNat) = some v →
    ∃ t, bdStep s = .next t ∧
      memRead .out t.bd.out s.bd.dst.toNat = some v ∧
      (∀ a, a ≠ s.bd.dst.toNat → memRead .out t.bd.out a = memRead .out s.bd.out a) ∧
      t.bd = { s.bd with
        dst := s.bd.dst + 1, crem := s.bd.crem - 1, out := t.bd.out,
        phase :=
          if s.bd.dst + 1 = s.bd.n ∨ s.bd.crem - 1 = 0 then
            if s.bd.n ≤ s.bd.dst + 1 then .done else if s.bd.bit = 8 then .flag else .unit
          else .copy } ∧
      t.trd = s.trd ∧ t.conv = s.conv ∧ t.host = s.host ∧ t.agenda = s.agenda ∧ t.draws = s.draws

/-- A back-reference repeats the pattern of the last `cdisp` bytes, whether or not it overlaps itself, and touches nothing
else (41_stream_units.md section 3, 70_reset_and_hazards.md section 3). -/
def Obligations.OverlappingCopyRepeatsThePattern : Prop :=
  ∀ (s : State) (m : Nat), s.bd.Inv → s.bd.phase = .copy → m ≤ s.bd.crem.toNat →
    s.bd.dst.toNat + m ≤ s.bd.n.toNat →
    ∃ t, bdRun m s = .next t ∧ t.bd.dst.toNat = s.bd.dst.toNat + m ∧
      (∀ j < m, memRead .out t.bd.out (s.bd.dst.toNat + j) =
        memRead .out s.bd.out (s.bd.dst.toNat - s.bd.cdisp.toNat + j % s.bd.cdisp.toNat)) ∧
      (∀ a, a < s.bd.dst.toNat ∨ s.bd.dst.toNat + m ≤ a →
        memRead .out t.bd.out a = memRead .out s.bd.out a)

/-- A back-reference longer than the room left performs only as many byte steps as there is room, completes the block
without an error, and leaves its remainder in `crem`. -/
def Obligations.CopyCutShortCompletesTheBlock : Prop :=
  ∀ s : State, s.bd.Inv → s.bd.phase = .copy → s.bd.n.toNat - s.bd.dst.toNat < s.bd.crem.toNat →
    ∃ t, bdRun (s.bd.n.toNat - s.bd.dst.toNat) s = .next t ∧ t.bd.phase = .done ∧
      t.bd.errcode = .noError ∧ t.bd.dst = s.bd.n ∧ t.bd.crem ≠ 0 ∧
      t.bd.crem.toNat = s.bd.crem.toNat - (s.bd.n.toNat - s.bd.dst.toNat)

/-! ### Failures -/

/-- A missing stream byte raises TruncatedInput, and a missing second copy byte does so whatever the displacement would
have been (60_exceptions.md section 3, decision D6). -/
def Obligations.MissingStreamBytesRaiseTruncatedInput : Prop :=
  ∀ (s : State) (kind : UnitKind), s.bd.phase ≠ .hdr → s.bd.selects = some kind →
    Loaded .input s.bd.input s.bd.len.toNat → s.bd.len.toNat < s.bd.cursor + kind.size →
    ∃ t, bdStep s = .next t ∧ t.bd.phase = .err ∧ t.bd.errcode = .truncatedInput ∧
      t.bd.response = some (.err .truncatedInput) ∧ t.bd.out = s.bd.out ∧
      t.trd = s.trd ∧ t.conv = s.conv ∧ t.host = s.host ∧ t.agenda = s.agenda

/-- BD enters ERR only by one of three failures, each from its own cause; STATUS then reads ERR, ERRCODE the failure's
number (decision D4), and the failing step writes nothing to OUT (60_exceptions.md sections 1 and 2). -/
def Obligations.EveryFailureHasItsCause : Prop :=
  ∀ s t : State, bdStep s = .next t → s.bd.phase ≠ .err → t.bd.phase = .err →
    t.bd.out = s.bd.out ∧ t.bd.status = .err ∧
    ((t.bd.response = some (.err .invalidHeader) ∧ t.bd.errcode.bits = 1 ∧ s.bd.phase = .hdr ∧
        s.bd.offset.toNat < s.bd.len.toNat ∧
        ∃ v, memRead .input s.bd.input s.bd.offset.toNat = some v ∧ v ≠ 0x10) ∨
      (t.bd.response = some (.err .truncatedInput) ∧ t.bd.errcode.bits = 2 ∧
        ∃ kind, s.bd.selects = some kind ∧ s.bd.len.toNat < s.bd.cursor + kind.size) ∨
      (t.bd.response = some (.err .corruptData) ∧ t.bd.errcode.bits = 3 ∧ s.bd.phase = .unit ∧
        s.bd.flags.getLsbD (7 - s.bd.bit.toNat) = true ∧ s.bd.src.toNat + 1 < s.bd.len.toNat ∧
        ∃ b1 b2, memRead .input s.bd.input s.bd.src.toNat = some b1 ∧
          memRead .input s.bd.input (s.bd.src.toNat + 1) = some b2 ∧
          s.bd.dst.toNat < b1.toNat % 16 * 256 + b2.toNat + 1))

/-- An engine at rest, ERR included, changes only by a launch of it or by a reset: there is no return from a failure
(60_exceptions.md section 4, 70_reset_and_hazards.md section 4). -/
def Obligations.EngineAtRestChangesOnlyByLaunchOrReset : Prop :=
  ∀ s t : State, step s = .next t → (∀ rest, s.agenda ≠ .host .reset :: rest) →
    (s.bd.status ≠ .busy → (∀ bytes offset rest, s.agenda ≠ .host (.start bytes offset) :: rest) →
      t.bd = s.bd) ∧
    (s.trd.tstatus ≠ .tbusy → (∀ bytes palette rest, s.agenda ≠ .host (.tstart bytes palette) :: rest) →
      (∀ g p rest, s.agenda ≠ .host (.tstartSprite g p) :: rest) → t.trd = s.trd)

/-! ### What a step may and may not change -/

/-- Each engine's step leaves its arguments, the other engine and everything else alone (10_state.md section 1). -/
def Obligations.EngineStepsLeaveArgumentsAndOthersAlone : Prop :=
  (∀ s t : State, bdStep s = .next t →
    t.bd.input = s.bd.input ∧ t.bd.len = s.bd.len ∧ t.bd.offset = s.bd.offset ∧
      t.trd = s.trd ∧ t.conv = s.conv ∧ t.host = s.host ∧ t.agenda = s.agenda) ∧
  (∀ s t : State, trdStep s = .next t →
    t.trd.tile = s.trd.tile ∧ t.trd.tlen = s.trd.tlen ∧ t.trd.pal = s.trd.pal ∧
      t.bd = s.bd ∧ t.conv = s.conv ∧ t.host = s.host ∧ t.agenda = s.agenda ∧ t.draws = s.draws)

/-- The read cursor only moves forward: by one at a flag byte or a literal, by two at a back-reference's two bytes, not
at all at a copied byte; N does not change after the header (41_stream_units.md section 4, 10_state.md section 3). -/
def Obligations.ReadCursorOnlyMovesForward : Prop :=
  ∀ s t : State, bdStep s = .next t → s.bd.Streaming → t.bd.phase ≠ .err →
    t.bd.n = s.bd.n ∧
    ((s.bd.phase = .flag ∧ t.bd.src.toNat = s.bd.src.toNat + 1) ∨
      (s.bd.phase = .unit ∧ s.bd.flags.getLsbD (7 - s.bd.bit.toNat) = false ∧
        t.bd.src.toNat = s.bd.src.toNat + 1) ∨
      (s.bd.phase = .unit ∧ s.bd.flags.getLsbD (7 - s.bd.bit.toNat) = true ∧
        t.bd.src.toNat = s.bd.src.toNat + 2) ∨
      (s.bd.phase = .copy ∧ t.bd.src = s.bd.src))

/-- `dst` counts the bytes of OUT: a step either leaves OUT and `dst` alone or writes the one byte at `dst`, below N, and
moves `dst` by one (10_state.md section 3, 20_memory.md section 1). -/
def Obligations.OutputIsWrittenForwardOneByteAtATime : Prop :=
  ∀ s t : State, bdStep s = .next t → s.bd.Streaming → t.bd.phase ≠ .err →
    (t.bd.out = s.bd.out ∧ t.bd.dst = s.bd.dst) ∨
      (s.bd.dst < s.bd.n ∧ t.bd.dst.toNat = s.bd.dst.toNat + 1 ∧
        (memRead .out t.bd.out s.bd.dst.toNat).isSome = true ∧
        ∀ a, a ≠ s.bd.dst.toNat → memRead .out t.bd.out a = memRead .out s.bd.out a)

/-- The frame of the stream units: what each leaves of BD's registers and OUT, by the table of 10_state.md section 4, when
it completes, and what it leaves when it raises a failure. -/
def Obligations.StreamUnitsLeaveTheRestUnchanged : Prop :=
  ∀ (i : Instr) (s t : State), (i.kind ≠ .pix2 ∧ i.kind ≠ .color) → exec i s = .next t →
    (t.trd = s.trd ∧ t.conv = s.conv ∧ t.host = s.host ∧ t.agenda = s.agenda ∧
      t.bd.input = s.bd.input ∧ t.bd.len = s.bd.len ∧ t.bd.offset = s.bd.offset) ∧
    (t.bd.phase = .err → t.bd.flags = s.bd.flags ∧ t.bd.out = s.bd.out) ∧
    (t.bd.phase ≠ .err → t.draws = s.draws ∧ t.bd.errcode = s.bd.errcode ∧
      match i with
      | .hdr _ => t.bd.flags = s.bd.flags ∧ t.bd.bit = s.bd.bit ∧ t.bd.crem = s.bd.crem ∧
          t.bd.cdisp = s.bd.cdisp
      | .flag _ => t.bd.n = s.bd.n ∧ t.bd.dst = s.bd.dst ∧ t.bd.crem = s.bd.crem ∧
          t.bd.cdisp = s.bd.cdisp ∧ t.bd.out = s.bd.out
      | .lit _ => t.bd.n = s.bd.n ∧ t.bd.flags = s.bd.flags ∧ t.bd.crem = s.bd.crem ∧
          t.bd.cdisp = s.bd.cdisp ∧
          ∀ a, a ≠ s.bd.dst.toNat → memRead .out t.bd.out a = memRead .out s.bd.out a
      | .copy _ _ => t.bd.n = s.bd.n ∧ t.bd.dst = s.bd.dst ∧ t.bd.flags = s.bd.flags ∧
          t.bd.out = s.bd.out
      | .pix2 _ _ => True
      | .color _ _ _ _ => True)

/-- BD's step depends on BD alone: two machines with the same BD (and the same count of free values) take the same step,
whatever TRD, the host and the agenda hold (10_state.md section 1). -/
def Obligations.BdStepDependsOnBdAlone : Prop :=
  ∀ s u : State, s.bd = u.bd → s.draws = u.draws →
    (∀ t, bdStep s = .next t → ∃ v, bdStep u = .next v ∧ v.bd = t.bd ∧ v.draws = t.draws) ∧
    (∀ f, bdStep s = .fault f → bdStep u = .fault f) ∧
    (∀ r, bdStep s = .refused r → bdStep u = .refused r)

/-- The engines do not interact: a step of BD and a step of TRD give the same state in either order (10_state.md
section 1). -/
def Obligations.EngineStepsCommute : Prop :=
  ∀ s t u : State, bdStep s = .next t → trdStep s = .next u →
    ∃ v, trdStep t = .next v ∧ bdStep u = .next v

/-! ### The tile raster decoder and the colour conversion -/

/-- The tile byte at `k` writes two pixels side by side, the low nibble's on the left, each converted from its palette
register, moves `k` by one, and ends the decode at byte 2048 or at the end of the stream. -/
def Obligations.TileBytePutsTwoPixels : Prop :=
  ∀ (s : State) (hi lo : BitVec 4), s.trd.tphase = .tbusy → s.trd.k.toNat < 2048 →
    s.trd.k.toNat < s.trd.tlen → MemWf .raster s.trd.raster →
    (∀ v, memRead .tile s.trd.tile s.trd.k.toNat = some v → lo.toNat = v.toNat % 16 →
      hi.toNat = v.toNat / 16 → trdStep s = exec (.pix2 hi lo) s) ∧
    ∃ t, exec (.pix2 hi lo) s = .next t ∧
      t.trd.k.toNat = s.trd.k.toNat + 1 ∧
      t.trd.tphase =
        (if s.trd.k.toNat + 1 = 2048 ∨ s.trd.k.toNat + 1 = s.trd.tlen then .tdone else .tbusy) ∧
      (∀ (p : BitVec 4) (x : Nat),
        (p = lo ∧ x = s.trd.k.toNat / 32 % 8 * 8 + s.trd.k.toNat % 4 * 2 ∨
          p = hi ∧ x = s.trd.k.toNat / 32 % 8 * 8 + s.trd.k.toNat % 4 * 2 + 1) →
        let y := s.trd.k.toNat / 256 * 8 + s.trd.k.toNat % 32 / 4
        let a := (y * 64 + x) * 4
        let c := (palAt s.trd.pal p).toNat
        memRead .raster t.trd.raster a = some (BitVec.ofNat 8 (c % 32 * 8)) ∧
        memRead .raster t.trd.raster (a + 1) = some (BitVec.ofNat 8 (c / 32 % 32 * 8)) ∧
        memRead .raster t.trd.raster (a + 2) = some (BitVec.ofNat 8 (c / 1024 % 32 * 8)) ∧
        memRead .raster t.trd.raster (a + 3) = some (if p = 0 then 0 else 255))

/-- The frame of a tile byte: every raster byte outside its two pixels, every argument and everything else of the machine
is unchanged (20_memory.md section 1, 42_tile_raster.md section 3). -/
def Obligations.TileByteLeavesTheRestUnchanged : Prop :=
  ∀ (s t : State) (hi lo : BitVec 4), exec (.pix2 hi lo) s = .next t →
    (∀ a, (a < rasterAddr (leftColumn s.trd.k.toNat) (pixelRow s.trd.k.toNat) ∨
        rasterAddr (leftColumn s.trd.k.toNat) (pixelRow s.trd.k.toNat) + 8 ≤ a) →
      memRead .raster t.trd.raster a = memRead .raster s.trd.raster a) ∧
    t.trd.tile = s.trd.tile ∧ t.trd.tlen = s.trd.tlen ∧ t.trd.pal = s.trd.pal ∧
    t.bd = s.bd ∧ t.conv = s.conv ∧ t.host = s.host ∧ t.agenda = s.agenda ∧ t.draws = s.draws

/-- The conversion multiplies each 5-bit channel by 8 and takes alpha from the index alone; bit 15 and everything else
play no part, and nothing else of the machine changes (42_tile_raster.md section 3). The latches that hold the index and
the result are the model's choice, log 10. -/
def Obligations.ColourConversionScalesChannels : Prop :=
  ∀ (s : State) (x : BitVec 1) (blue green red : BitVec 5),
    ∃ t, exec (.color x blue green red) s = .next t ∧
      t.conv.rgba.r.toNat = red.toNat * 8 ∧ t.conv.rgba.g.toNat = green.toNat * 8 ∧
      t.conv.rgba.b.toNat = blue.toNat * 8 ∧ t.conv.rgba.a = (if s.conv.p = 0 then 0 else 255) ∧
      t = s.setConv { p := s.conv.p, rgba := t.conv.rgba }

/-- A call of the conversion with any 16-bit value and index returns its four bytes, whatever bit 15 is (30_encoding.md
section 6, 42_tile_raster.md section 3). That the host can call it, and the latch its result stands in, are the model's
choice, log 10. -/
def Obligations.ColourCallIgnoresBitFifteen : Prop :=
  ∀ (s : State) (c : BitVec 16) (p : BitVec 4) (rest : List Move),
    s.agenda = .host (.convert c p) :: rest →
    ∃ t, step s = .next t ∧ t.conv.rgba = rgba c p ∧ t.bd = s.bd ∧ t.trd = s.trd ∧
      (rgba c p).r.toNat = c.toNat % 32 * 8 ∧ (rgba c p).g.toNat = c.toNat / 32 % 32 * 8 ∧
      (rgba c p).b.toNat = c.toNat / 1024 % 32 * 8 ∧ (rgba c p).a = (if p = 0 then 0 else 255) ∧
      rgba (c ||| 0x8000) p = rgba c p

/-- The pixel at column x, row y of the decoded raster comes from one nibble of one tile byte, found by inverting the
tile traversal; where the stream does not reach it the pixel is all zero (42_tile_raster.md sections 2, 4 and 5). -/
def Obligations.DecodedPixelsStandWhereTheTraversalPutsThem : Prop :=
  ∀ (bytes : List Byte) (pal : Palette) (x y : Nat), x < 64 → y < 64 →
    let k := (y / 8 * 8 + x / 8) * 32 + y % 8 * 4 + x % 8 / 2
    let a := (y * 64 + x) * 4
    (bytes[k]? = none → ∀ j < 4, memRead .raster (decodeTiles bytes pal) (a + j) = some 0) ∧
    (∀ v, bytes[k]? = some v →
      let p : BitVec 4 := if x % 2 = 0 then v.extractLsb' 0 4 else v.extractLsb' 4 4
      memRead .raster (decodeTiles bytes pal) a = some (rgba (palAt pal p) p).r ∧
      memRead .raster (decodeTiles bytes pal) (a + 1) = some (rgba (palAt pal p) p).g ∧
      memRead .raster (decodeTiles bytes pal) (a + 2) = some (rgba (palAt pal p) p).b ∧
      memRead .raster (decodeTiles bytes pal) (a + 3) = some (rgba (palAt pal p) p).a)

/-! ### Palette packing and the sprite sequence -/

/-- Sixteen little-endian values are packed from a buffer of at least 32 bytes, and bytes after the 32nd are not used. -/
def Obligations.PaletteIsPackedLittleEndian : Prop :=
  ∀ buf : List Byte, 32 ≤ buf.length →
    ∃ pal, packPalette buf = some pal ∧ packPalette (buf.take 32) = some pal ∧
      ∀ i : BitVec 4, (palAt pal i).toNat =
        (buf.getD (2 * i.toNat) 0).toNat + 256 * (buf.getD (2 * i.toNat + 1) 0).toNat

/-- No palette is packed from fewer than 32 bytes: a sprite launch from one is refused (decision D14, log 13). -/
def Obligations.ShortPaletteIsRefused : Prop :=
  ∀ (s : State) (g p : Nat) (gfx palBuf : List Byte) (rest : List Move),
    s.agenda = .host (.tstartSprite g p) :: rest → s.host.taken[g]? = some (.ok gfx) →
    s.host.taken[p]? = some (.ok palBuf) → palBuf.length < 32 → step s = .refused .shortPalette

/-- After a failed decompression, of either block, the host does not launch TRD and nothing else changes (43_pipeline.md,
host duty on failure; log 16). -/
def Obligations.FailedDecompressionSkipsTheRaster : Prop :=
  ∀ (s : State) (g p : Nat) (rg rp : BdResponse) (rest : List Move),
    s.agenda = .host (.tstartSprite g p) :: rest → s.host.taken[g]? = some rg →
    s.host.taken[p]? = some rp → ((∃ e, rg = .err e) ∨ ∃ e, rp = .err e) →
    step s = .next (s.setAgenda rest)

/-- Two good responses launch TRD on the one the host names as graphics, unchanged, with the sixteen colours packed from
the one it names as palette, whichever of them was taken first (43_pipeline.md, host steps 4 to 6;
70_reset_and_hazards.md section 2). That the host names them by their places is the model's choice, log 16. -/
def Obligations.SpriteLaunchReadsTheBlocksTheHostNames : Prop :=
  ∀ (s : State) (g p : Nat) (gfx palBuf : List Byte) (rest : List Move),
    s.agenda = .host (.tstartSprite g p) :: rest → s.host.taken[g]? = some (.ok gfx) →
    s.host.taken[p]? = some (.ok palBuf) → 32 ≤ palBuf.length → s.trd.tstatus ≠ .tbusy →
    ∃ t, step s = .next t ∧
      (∀ i : BitVec 4, (palAt t.trd.pal i).toNat =
        (palBuf.getD (2 * i.toNat) 0).toNat + 256 * (palBuf.getD (2 * i.toNat + 1) 0).toNat) ∧
      t.trd.tlen = gfx.length ∧ (∀ a, memRead .tile t.trd.tile a = gfx[a]?) ∧
      t.trd.k = 0 ∧ (∀ a, memRead .raster t.trd.raster a = some 0) ∧
      t.trd.tphase = (if gfx.length = 0 then .tdone else .tbusy) ∧
      t.bd = s.bd ∧ t.conv = s.conv ∧ t.host = s.host ∧ t.agenda = rest ∧ t.draws = s.draws

/-! ### Headline results -/

/-- The invariant of 10_state.md section 8 holds after reset. -/
def Obligations.ResetMeetsTheInvariant : Prop := State.reset.Inv ∧ RasterLegal State.reset.trd.raster

/-- Every step keeps the invariant of 10_state.md section 8. -/
def Obligations.StepKeepsTheInvariant : Prop :=
  ∀ s t : State, s.Inv → step s = .next t → t.Inv

/-- Every step keeps the raster's bytes legal: each alpha byte 0 or 255, each colour byte a multiple of 8, as reads show
(42_tile_raster.md section 5). -/
def Obligations.StepKeepsRasterBytesLegal : Prop :=
  (∀ s t : State, RasterLegal s.trd.raster → step s = .next t → RasterLegal t.trd.raster) ∧
  (∀ (m : List Host.Cell) (a : Nat) (v : Byte), RasterLegal m → memRead .raster m a = some v →
    (a % 4 = 3 → v = 0 ∨ v = 255) ∧ (a % 4 ≠ 3 → v.toNat % 8 = 0 ∧ v.toNat ≤ 248))

/-- From a state that meets the invariant no step faults: OUT is never read before it is written, and no byte outside a
loaded buffer is read (20_memory.md section 1). -/
def Obligations.InvariantExcludesFaults : Prop := ∀ s : State, s.Inv → SafeStep s

/-- From a state that meets the invariant a busy engine's step always answers a next state in which it has strictly less
left to do, by a measure in the natural numbers, so neither engine can hang (41_stream_units.md section 4,
42_tile_raster.md section 4); a step of an engine at rest leaves the state as it is (60_exceptions.md section 4,
70_reset_and_hazards.md section 4; that it is a step at all is deduced, log 19). -/
def Obligations.EnginesNeverHang : Prop :=
  ∀ s : State, s.Inv →
    (s.bd.status = .busy → ∃ t, bdStep s = .next t ∧ t.bd.stepsLeft < s.bd.stepsLeft) ∧
    (s.trd.tstatus = .tbusy → ∃ t, trdStep s = .next t ∧ t.trd.stepsLeft < s.trd.stepsLeft) ∧
    (s.bd.status ≠ .busy → bdStep s = .next s) ∧
    (s.trd.tstatus ≠ .tbusy → trdStep s = .next s)

/-- From the first flag byte on, a block ends within 2N + ceil(N/8) steps of BD (41_stream_units.md section 4). -/
def Obligations.BlockEndsWithinTheStepBound : Prop :=
  ∀ s : State, s.Inv → s.bd.phase = .flag → s.bd.dst = 0 →
    ∃ k ≤ 2 * s.bd.n.toNat + (s.bd.n.toNat + 7) / 8, ∃ t, bdRun k s = .next t ∧
      (t.bd.status = .done ∨ t.bd.status = .err)

/-- A launched BD ends with the response that the one-function form of the block gives for the same bytes and offset, from
any state in which BD is not busy (41_stream_units.md section 4, the function Decompress; log 5 for the moves). -/
def Obligations.BdRunAnswersDecompress : Prop :=
  ∀ (s : State) (bytes : List Byte) (offset : BitVec 32),
    s.agenda = [.host (.start bytes offset)] → s.bd.status ≠ .busy → bytes.length < 2 ^ 32 →
    ∃ k t, run k s = .next t ∧ t.agenda = [] ∧
      t.bd.response = some (decompress bytes offset.toNat)

/-- A launched TRD ends, after exactly min(TLEN, 2048) tile-byte steps, with the raster that the one-function form gives
for the same bytes and palette, and its response is the 16384 bytes of that raster (42_tile_raster.md sections 4 and 5,
the function DecodeTiles; 10_state.md section 5; log 5 for the moves). -/
def Obligations.TrdRunAnswersDecodeTiles : Prop :=
  ∀ (s : State) (bytes : List Byte) (pal : Palette),
    s.agenda = [.host (.tstart bytes pal)] → s.bd.status ≠ .busy → s.trd.tstatus ≠ .tbusy →
    ∃ t, run (1 + min bytes.length 2048) s = .next t ∧ t.agenda = [] ∧ t.trd.tstatus = .tdone ∧
      t.trd.raster = decodeTiles bytes pal ∧ t.trd.k.toNat = min bytes.length 2048 ∧ t.bd = s.bd ∧
      ∃ buf : List Byte, t.trd.response = some buf ∧ buf.length = 16384 ∧
        ∀ j < 16384, memRead .raster (decodeTiles bytes pal) j = buf[j]?

/-- The intended sequence: two blocks decompressed and taken, in either order, then the sprite launched, end with the
raster that the one-function forms give (43_pipeline.md, the host steps; log 5 and log 16 for the moves). -/
def Obligations.SpriteSequenceDecodesTheRaster : Prop :=
  ∀ (s : State) (bytes gfx palBuf : List Byte) (offGfx offPal : BitVec 32) (pal : Palette),
    (s.agenda = spriteMoves bytes offGfx offPal s.host.taken.length (s.host.taken.length + 1) ∨
      s.agenda = spriteMoves bytes offPal offGfx (s.host.taken.length + 1) s.host.taken.length) →
    s.bd.status ≠ .busy → s.trd.tstatus ≠ .tbusy → bytes.length < 2 ^ 32 →
    decompress bytes offGfx.toNat = .ok gfx → decompress bytes offPal.toNat = .ok palBuf →
    packPalette palBuf = some pal →
    ∃ k t, run k s = .next t ∧ t.agenda = [] ∧ t.trd.tstatus = .tdone ∧
      t.trd.raster = decodeTiles gfx pal
end

