-- ==== Sys2Proof/Laws/Decode.lean ====
section
/-! SUPPORT. Laws/Decode.lean: the byte-order and bit-field helpers as arithmetic on natural numbers. -/

namespace Sys2Proof

/-- Bits put above bits. -/
theorem append_toNat {m n : Nat} (a : BitVec m) (b : BitVec n) :
    (a ++ b).toNat = a.toNat * 2 ^ n + b.toNat := by
  rw [BitVec.toNat_append, ← Nat.shiftLeft_add_eq_or_of_lt b.isLt, Nat.shiftLeft_eq]

/-- `LE24` puts the first byte lowest. -/
theorem le24_eq_append (l0 l1 l2 : Byte) : le24 l0 l1 l2 = l2 ++ l1 ++ l0 := by
  apply BitVec.eq_of_getLsbD_eq
  intro i hi
  simp only [le24, BitVec.getLsbD_or, BitVec.getLsbD_setWidth, BitVec.getLsbD_shiftLeft,
    BitVec.getLsbD_append]
  by_cases h8 : i < 8
  · simp [h8, hi, show i < 16 by omega]
  · by_cases h16 : i < 16
    · simp [h8, h16, hi, show i - 8 < 8 by omega, BitVec.getLsbD_of_ge l0 i (by omega)]
      omega
    · simp [h8, h16, hi, show ¬ i - 8 < 8 by omega, BitVec.getLsbD_of_ge l0 i (by omega),
        BitVec.getLsbD_of_ge l1 (i - 8) (by omega), show i - 8 - 8 = i - 16 by omega]
      omega

/-- `LE24` as a sum (R84). -/
theorem le24_toNat (l0 l1 l2 : Byte) :
    (le24 l0 l1 l2).toNat = l0.toNat + 256 * l1.toNat + 65536 * l2.toNat := by
  rw [le24_eq_append, append_toNat, append_toNat]
  omega

/-- `LE16` puts the first byte lowest. -/
theorem le16_eq_append (lo hi : Byte) : le16 lo hi = hi ++ lo := by
  apply BitVec.eq_of_getLsbD_eq
  intro i hi'
  simp only [le16, BitVec.getLsbD_or, BitVec.getLsbD_setWidth, BitVec.getLsbD_shiftLeft,
    BitVec.getLsbD_append]
  by_cases h8 : i < 8
  · simp [h8, hi']
  · simp [h8, hi', BitVec.getLsbD_of_ge lo i (by omega)]
    omega

/-- `LE16` as a sum (R113). -/
theorem le16_toNat (lo hi : Byte) : (le16 lo hi).toNat = lo.toNat + 256 * hi.toNat := by
  rw [le16_eq_append, append_toNat]
  omega

end Sys2Proof
end

