-- ==== Sys2Proof/Laws/State.lean ====
section
/-! SUPPORT. Laws/State.lean: what each update of State leaves of each field. -/

namespace Sys2Proof.Machine

@[simp] theorem State.setBd_bd (s : State) (v : Bd) : (s.setBd v).bd = v := rfl
@[simp] theorem State.setBd_trd (s : State) (v : Bd) : (s.setBd v).trd = s.trd := rfl
@[simp] theorem State.setBd_conv (s : State) (v : Bd) : (s.setBd v).conv = s.conv := rfl
@[simp] theorem State.setBd_host (s : State) (v : Bd) : (s.setBd v).host = s.host := rfl
@[simp] theorem State.setBd_agenda (s : State) (v : Bd) : (s.setBd v).agenda = s.agenda := rfl
@[simp] theorem State.setBd_draws (s : State) (v : Bd) : (s.setBd v).draws = s.draws := rfl

@[simp] theorem State.setTrd_bd (s : State) (v : Trd) : (s.setTrd v).bd = s.bd := rfl
@[simp] theorem State.setTrd_trd (s : State) (v : Trd) : (s.setTrd v).trd = v := rfl
@[simp] theorem State.setTrd_conv (s : State) (v : Trd) : (s.setTrd v).conv = s.conv := rfl
@[simp] theorem State.setTrd_host (s : State) (v : Trd) : (s.setTrd v).host = s.host := rfl
@[simp] theorem State.setTrd_agenda (s : State) (v : Trd) : (s.setTrd v).agenda = s.agenda := rfl
@[simp] theorem State.setTrd_draws (s : State) (v : Trd) : (s.setTrd v).draws = s.draws := rfl

@[simp] theorem State.setConv_bd (s : State) (v : Conv) : (s.setConv v).bd = s.bd := rfl
@[simp] theorem State.setConv_trd (s : State) (v : Conv) : (s.setConv v).trd = s.trd := rfl
@[simp] theorem State.setConv_conv (s : State) (v : Conv) : (s.setConv v).conv = v := rfl
@[simp] theorem State.setConv_host (s : State) (v : Conv) : (s.setConv v).host = s.host := rfl
@[simp] theorem State.setConv_agenda (s : State) (v : Conv) : (s.setConv v).agenda = s.agenda := rfl
@[simp] theorem State.setConv_draws (s : State) (v : Conv) : (s.setConv v).draws = s.draws := rfl

@[simp] theorem State.setHost_bd (s : State) (v : HostSide) : (s.setHost v).bd = s.bd := rfl
@[simp] theorem State.setHost_trd (s : State) (v : HostSide) : (s.setHost v).trd = s.trd := rfl
@[simp] theorem State.setHost_conv (s : State) (v : HostSide) : (s.setHost v).conv = s.conv := rfl
@[simp] theorem State.setHost_host (s : State) (v : HostSide) : (s.setHost v).host = v := rfl
@[simp] theorem State.setHost_agenda (s : State) (v : HostSide) : (s.setHost v).agenda = s.agenda := rfl
@[simp] theorem State.setHost_draws (s : State) (v : HostSide) : (s.setHost v).draws = s.draws := rfl

@[simp] theorem State.setAgenda_bd (s : State) (v : List Move) : (s.setAgenda v).bd = s.bd := rfl
@[simp] theorem State.setAgenda_trd (s : State) (v : List Move) : (s.setAgenda v).trd = s.trd := rfl
@[simp] theorem State.setAgenda_conv (s : State) (v : List Move) : (s.setAgenda v).conv = s.conv := rfl
@[simp] theorem State.setAgenda_host (s : State) (v : List Move) : (s.setAgenda v).host = s.host := rfl
@[simp] theorem State.setAgenda_agenda (s : State) (v : List Move) : (s.setAgenda v).agenda = v := rfl
@[simp] theorem State.setAgenda_draws (s : State) (v : List Move) : (s.setAgenda v).draws = s.draws := rfl

@[simp] theorem State.setDraws_bd (s : State) (v : Nat) : (s.setDraws v).bd = s.bd := rfl
@[simp] theorem State.setDraws_trd (s : State) (v : Nat) : (s.setDraws v).trd = s.trd := rfl
@[simp] theorem State.setDraws_conv (s : State) (v : Nat) : (s.setDraws v).conv = s.conv := rfl
@[simp] theorem State.setDraws_host (s : State) (v : Nat) : (s.setDraws v).host = s.host := rfl
@[simp] theorem State.setDraws_agenda (s : State) (v : Nat) : (s.setDraws v).agenda = s.agenda := rfl
@[simp] theorem State.setDraws_draws (s : State) (v : Nat) : (s.setDraws v).draws = v := rfl

/-- The state after reset holds the reset BD. -/
@[simp] theorem reset_bd : State.reset.bd = Bd.reset := rfl

/-- The state after reset holds the reset TRD. -/
@[simp] theorem reset_trd : State.reset.trd = Trd.reset := rfl

@[simp] theorem reset_agenda : State.reset.agenda = [] := rfl

end Sys2Proof.Machine
end

