-- ==== Sys2Proof/Laws/Memory.lean ====
section
/-! SUPPORT. Laws/Memory.lean: read after write, and the canonical form every memory operation keeps. -/

namespace Sys2Proof.Machine

variable {sp : Space} {m : List Host.Cell} {a b : Nat} {v : Byte}

@[simp] theorem memRead_nil : memRead sp [] a = sp.unlisted := rfl

theorem memRead_cons (c : Host.Cell) :
    memRead sp (c :: m) a = if c.1 = a then some c.2 else memRead sp m a := rfl

/-- An address that is not listed reads as the space says. -/
theorem memRead_of_not_listed (h : ∀ c ∈ m, c.1 ≠ a) : memRead sp m a = sp.unlisted := by
  induction m with
  | nil => rfl
  | cons c rest ih =>
    rw [memRead_cons, if_neg (h c (by simp))]
    exact ih fun d hd => h d (by simp [hd])

/-- Below a rising list's first address nothing is listed. -/
theorem memRead_below {c : Host.Cell} (hw : MemWf sp (c :: m)) (h : a < c.1) :
    memRead sp (c :: m) a = sp.unlisted := by
  apply memRead_of_not_listed
  intro d hd
  rcases List.mem_cons.1 hd with rfl | hd
  · omega
  · have := (List.pairwise_cons.1 hw.1).1 d hd
    omega

/-- The tail of a canonical memory is canonical. -/
theorem MemWf.tail {c : Host.Cell} (hw : MemWf sp (c :: m)) : MemWf sp m :=
  ⟨(List.pairwise_cons.1 hw.1).2, fun d hd => hw.2 d (by simp [hd])⟩

/-- A read at another address does not see a cell put in front. -/
theorem memRead_memCons_of_ne (h : b ≠ a) : memRead sp (memCons sp a v m) b = memRead sp m b := by
  unfold memCons
  split
  · rfl
  · rw [memRead_cons, if_neg (fun e => h e.symm)]

/-- A write leaves every other address alone, in any list. -/
theorem memRead_memWrite_of_ne (h : b ≠ a) : memRead sp (memWrite sp m a v) b = memRead sp m b := by
  induction m with
  | nil => exact memRead_memCons_of_ne h
  | cons c rest ih =>
    unfold memWrite
    split
    · exact memRead_memCons_of_ne h
    · split
      · next hc => rw [memRead_memCons_of_ne h, memRead_cons, if_neg (by omega)]
      · rw [memRead_cons, memRead_cons, ih]

/-- A cell put in front is read back, or was what an unlisted address reads as. -/
theorem memRead_memCons_self (h : memRead sp m a = sp.unlisted) :
    memRead sp (memCons sp a v m) a = some v := by
  unfold memCons
  split
  · next hv => rw [h, hv]
  · simp [memRead_cons]

/-- A read after a write to the same address gives the byte written. -/
theorem memRead_memWrite_self (hw : MemWf sp m) : memRead sp (memWrite sp m a v) a = some v := by
  induction m with
  | nil => exact memRead_memCons_self rfl
  | cons c rest ih =>
    unfold memWrite
    split
    · next hlt => exact memRead_memCons_self (memRead_below hw hlt)
    · split
      · next heq =>
        apply memRead_memCons_self
        apply memRead_of_not_listed
        intro d hd
        have := (List.pairwise_cons.1 hw.1).1 d hd
        omega
      · next hne => rw [memRead_cons, if_neg (by omega)]; exact ih hw.tail

/-- In OUT, where no value is the unlisted one, a read after a write holds in any list. -/
theorem memRead_memWrite_out : memRead .out (memWrite .out m a v) a = some v := by
  induction m with
  | nil => simp [memWrite, memCons, Space.unlisted, memRead]
  | cons c rest ih =>
    unfold memWrite
    split
    · simp [memCons, Space.unlisted, memRead]
    · split
      · simp [memCons, Space.unlisted, memRead]
      · next hne => rw [memRead_cons, if_neg (by omega)]; exact ih

/-- A cell listed after a write was listed before or is the one written. -/
theorem mem_memWrite {c : Host.Cell} (h : c ∈ memWrite sp m a v) :
    c ∈ m ∨ (c = (a, v) ∧ sp.unlisted ≠ some v) := by
  have hcons : ∀ rest : List Host.Cell, c ∈ memCons sp a v rest →
      c ∈ rest ∨ (c = (a, v) ∧ sp.unlisted ≠ some v) := by
    intro rest hc
    unfold memCons at hc
    split at hc
    · exact .inl hc
    · next hne =>
      rcases List.mem_cons.1 hc with rfl | hc
      · exact .inr ⟨rfl, hne⟩
      · exact .inl hc
  induction m with
  | nil => exact hcons _ h
  | cons d rest ih =>
    unfold memWrite at h
    split at h
    · exact hcons _ h
    · split at h
      · exact (hcons _ h).imp_left fun hc => by simp [hc]
      · rcases List.mem_cons.1 h with rfl | h
        · exact .inl (by simp)
        · exact (ih h).imp_left fun hc => by simp [hc]

/-- A write keeps the canonical form. -/
theorem memWrite_wf (hw : MemWf sp m) : MemWf sp (memWrite sp m a v) := by
  refine ⟨?_, fun c hc => ?_⟩
  · induction m with
    | nil => unfold memWrite memCons; split <;> simp
    | cons d rest ih =>
      have htail := ih hw.tail
      have hd := (List.pairwise_cons.1 hw.1).1
      unfold memWrite
      split
      · next hlt =>
        unfold memCons
        split
        · exact hw.1
        · refine List.pairwise_cons.2 ⟨fun e he => ?_, hw.1⟩
          rcases List.mem_cons.1 he with rfl | he
          · exact hlt
          · exact lt_trans hlt (hd e he)
      · split
        · next heq =>
          unfold memCons
          split
          · exact hw.tail.1
          · exact List.pairwise_cons.2 ⟨fun e he => by simpa [heq] using hd e he, hw.tail.1⟩
        · refine List.pairwise_cons.2 ⟨fun e he => ?_, htail⟩
          rcases mem_memWrite he with he | ⟨rfl, -⟩
          · exact hd e he
          · simp only; omega
  · rcases mem_memWrite hc with hc | ⟨rfl, hne⟩
    · exact hw.2 c hc
    · exact hne

/-- A buffer's bytes are listed from its address on, in order. -/
theorem memOfBytes_map_fst (a : Nat) (bytes : List Byte) :
    (memOfBytes a bytes).map Prod.fst = List.range' a bytes.length := by
  induction bytes generalizing a with
  | nil => rfl
  | cons v rest ih => simp [memOfBytes, ih, List.range'_succ]

/-- A buffer laid out in a space that has no unlisted value is canonical. -/
theorem memOfBytes_wf (h : sp.unlisted = none) (a : Nat) (bytes : List Byte) :
    MemWf sp (memOfBytes a bytes) := by
  refine ⟨?_, fun c _ => by simp [h]⟩
  have := List.pairwise_lt_range' (s := a) (n := bytes.length) (step := 1)
  rw [← memOfBytes_map_fst, List.pairwise_map] at this
  exact this

/-- A buffer reads back byte by byte. -/
theorem memRead_memOfBytes (h : sp.unlisted = none) (base : Nat) (bytes : List Byte) (j : Nat) :
    memRead sp (memOfBytes base bytes) (base + j) = bytes[j]? := by
  induction bytes generalizing base j with
  | nil => simp [memOfBytes, h]
  | cons v rest ih =>
    cases j with
    | zero => simp [memOfBytes, memRead_cons]
    | succ j =>
      have := ih (base + 1) j
      rw [show base + 1 + j = base + (j + 1) by omega] at this
      simp [memOfBytes, memRead_cons, this]

/-- Below a buffer nothing has a value. -/
theorem memRead_memOfBytes_below (h : sp.unlisted = none) {base a : Nat} (hlt : a < base)
    (bytes : List Byte) : memRead sp (memOfBytes base bytes) a = none := by
  induction bytes generalizing base with
  | nil => simp [memOfBytes, h]
  | cons v rest ih =>
    rw [memOfBytes, memRead_cons, if_neg (by simp; omega), ih (by omega)]

/-- A range reads as a list exactly when each of its bytes does. -/
theorem memReadRange_eq_some {count : Nat} {vs : List Byte} :
    memReadRange sp m a count = some vs ↔
      vs.length = count ∧ ∀ j < count, memRead sp m (a + j) = vs[j]? := by
  induction count generalizing a vs with
  | zero => cases vs <;> simp [memReadRange]
  | succ count ih =>
    constructor
    · intro h
      unfold memReadRange at h
      split at h
      · simp at h
      · next v hv =>
        split at h
        · simp at h
        · next ws hws =>
          obtain ⟨hlen, hj⟩ := ih.1 hws
          cases h
          refine ⟨by simp [hlen], fun j hlt => ?_⟩
          cases j with
          | zero => simpa using hv
          | succ j =>
            have := hj j (by omega)
            rw [show a + 1 + j = a + (j + 1) by omega] at this
            simpa using this
    · rintro ⟨hlen, hj⟩
      obtain _ | ⟨v, ws⟩ := vs
      · simp at hlen
      have hv : memRead sp m a = some v := by simpa using hj 0 (by omega)
      have hws : memReadRange sp m (a + 1) count = some ws := by
        refine ih.2 ⟨by simpa using hlen, fun j hlt => ?_⟩
        have := hj (j + 1) (by omega)
        rw [show a + 1 + j = a + (j + 1) by omega]
        simpa using this
      simp [memReadRange, hv, hws]

/-- Every byte of a raster has a value (R43). -/
theorem memRead_raster_some (m : List Host.Cell) (a : Nat) : ∃ v, memRead .raster m a = some v := by
  induction m with
  | nil => exact ⟨0, rfl⟩
  | cons c rest ih => rw [memRead_cons]; split <;> [exact ⟨_, rfl⟩; exact ih]

/-- Putting a pixel keeps the raster canonical. -/
theorem putPixel_wf (hw : MemWf .raster m) (x y : Nat) (px : Pixel) : MemWf .raster (putPixel m x y px) :=
  memWrite_wf (memWrite_wf (memWrite_wf (memWrite_wf hw)))

/-- Putting a pixel pair keeps the raster canonical. -/
theorem putPair_wf (hw : MemWf .raster m) (pal : Palette) (k : Nat) (hi lo : BitVec 4) :
    MemWf .raster (putPair m pal k hi lo) :=
  putPixel_wf (putPixel_wf hw _ _ _) _ _ _

/-- A pixel leaves every byte outside its four alone. -/
theorem memRead_putPixel_of_outside (x y : Nat) (px : Pixel)
    (h : b < rasterAddr x y ∨ rasterAddr x y + 4 ≤ b) :
    memRead .raster (putPixel m x y px) b = memRead .raster m b := by
  unfold putPixel
  rw [memRead_memWrite_of_ne (by omega), memRead_memWrite_of_ne (by omega),
    memRead_memWrite_of_ne (by omega), memRead_memWrite_of_ne (by omega)]

/-- The four bytes of a pixel read back. -/
theorem memRead_putPixel (hw : MemWf .raster m) (x y : Nat) (px : Pixel) :
    memRead .raster (putPixel m x y px) (rasterAddr x y) = some px.r ∧
    memRead .raster (putPixel m x y px) (rasterAddr x y + 1) = some px.g ∧
    memRead .raster (putPixel m x y px) (rasterAddr x y + 2) = some px.b ∧
    memRead .raster (putPixel m x y px) (rasterAddr x y + 3) = some px.a := by
  have h1 := memWrite_wf (a := rasterAddr x y) (v := px.r) hw
  have h2 := memWrite_wf (a := rasterAddr x y + 1) (v := px.g) h1
  have h3 := memWrite_wf (a := rasterAddr x y + 2) (v := px.b) h2
  unfold putPixel
  refine ⟨?_, ?_, ?_, memRead_memWrite_self h3⟩
  · rw [memRead_memWrite_of_ne (by omega), memRead_memWrite_of_ne (by omega),
      memRead_memWrite_of_ne (by omega), memRead_memWrite_self hw]
  · rw [memRead_memWrite_of_ne (by omega), memRead_memWrite_of_ne (by omega), memRead_memWrite_self h1]
  · rw [memRead_memWrite_of_ne (by omega), memRead_memWrite_self h2]

/-- The memories of the state after reset are canonical. -/
theorem reset_memories_wf :
    MemWf .input State.reset.bd.input ∧ MemWf .out State.reset.bd.out ∧
      MemWf .tile State.reset.trd.tile ∧ MemWf .raster State.reset.trd.raster := by
  decide

end Sys2Proof.Machine
end

