-- ==== Sys2Proof/Laws/Ops.lean ====
section
/-! SUPPORT. Laws/Ops.lean: what raising a failure, launching an engine, fetching bytes and taking a response do. -/

namespace Sys2Proof.Machine

variable {s t : State}

/-- What a failure fixes of BD (R125): the rest of BD's registers is free. -/
theorem raise_bd (e : Failure) (s : State) :
    (raise e s).bd.phase = .err ∧ (raise e s).bd.errcode = e.code ∧ (raise e s).bd.out = s.bd.out ∧
      (raise e s).bd.flags = s.bd.flags ∧ (raise e s).bd.input = s.bd.input ∧
      (raise e s).bd.len = s.bd.len ∧ (raise e s).bd.offset = s.bd.offset :=
  ⟨rfl, rfl, rfl, rfl, rfl, rfl, rfl⟩

/-- A failure leaves everything outside BD alone, but for the count of free values drawn. -/
theorem raise_frame (e : Failure) (s : State) :
    (raise e s).trd = s.trd ∧ (raise e s).conv = s.conv ∧ (raise e s).host = s.host ∧
      (raise e s).agenda = s.agenda ∧ (raise e s).draws = s.draws + 1 :=
  ⟨rfl, rfl, rfl, rfl, rfl⟩

@[simp] theorem raise_phase (e : Failure) (s : State) : (raise e s).bd.phase = .err := rfl
@[simp] theorem raise_errcode (e : Failure) (s : State) : (raise e s).bd.errcode = e.code := rfl
@[simp] theorem raise_out (e : Failure) (s : State) : (raise e s).bd.out = s.bd.out := rfl
@[simp] theorem raise_input (e : Failure) (s : State) : (raise e s).bd.input = s.bd.input := rfl
@[simp] theorem raise_len (e : Failure) (s : State) : (raise e s).bd.len = s.bd.len := rfl
@[simp] theorem raise_offset (e : Failure) (s : State) : (raise e s).bd.offset = s.bd.offset := rfl
@[simp] theorem raise_flags (e : Failure) (s : State) : (raise e s).bd.flags = s.bd.flags := rfl
@[simp] theorem raise_trd (e : Failure) (s : State) : (raise e s).trd = s.trd := rfl
@[simp] theorem raise_conv (e : Failure) (s : State) : (raise e s).conv = s.conv := rfl
@[simp] theorem raise_host (e : Failure) (s : State) : (raise e s).host = s.host := rfl
@[simp] theorem raise_agenda (e : Failure) (s : State) : (raise e s).agenda = s.agenda := rfl
@[simp] theorem raise_draws (e : Failure) (s : State) : (raise e s).draws = s.draws + 1 := rfl

/-- A failure always leaves an error code. -/
theorem Failure.code_ne_noError (e : Failure) : e.code ≠ .noError := by cases e <;> decide

/-- The response after a failure is its name (R126). -/
@[simp] theorem raise_response (e : Failure) (s : State) : (raise e s).bd.response = some (.err e) := by
  cases e <;> rfl

@[simp] theorem launchBd_trd (bytes : List Byte) (offset : BitVec 32) (s : State) :
    (launchBd bytes offset s).trd = s.trd := rfl
@[simp] theorem launchBd_conv (bytes : List Byte) (offset : BitVec 32) (s : State) :
    (launchBd bytes offset s).conv = s.conv := rfl
@[simp] theorem launchBd_host (bytes : List Byte) (offset : BitVec 32) (s : State) :
    (launchBd bytes offset s).host = s.host := rfl
@[simp] theorem launchBd_agenda (bytes : List Byte) (offset : BitVec 32) (s : State) :
    (launchBd bytes offset s).agenda = s.agenda := rfl
@[simp] theorem launchTrd_bd (bytes : List Byte) (palette : Palette) (s : State) :
    (launchTrd bytes palette s).bd = s.bd := rfl
@[simp] theorem launchTrd_conv (bytes : List Byte) (palette : Palette) (s : State) :
    (launchTrd bytes palette s).conv = s.conv := rfl
@[simp] theorem launchTrd_host (bytes : List Byte) (palette : Palette) (s : State) :
    (launchTrd bytes palette s).host = s.host := rfl
@[simp] theorem launchTrd_agenda (bytes : List Byte) (palette : Palette) (s : State) :
    (launchTrd bytes palette s).agenda = s.agenda := rfl

/-- A launch loads all of IN (R81, R144). -/
theorem launchBd_loaded (bytes : List Byte) (offset : BitVec 32) (s : State)
    (h : bytes.length < Config.lenBound) :
    MemWf .input (launchBd bytes offset s).bd.input ∧ (launchBd bytes offset s).bd.len.toNat = bytes.length ∧
      ∀ a, memRead .input (launchBd bytes offset s).bd.input a = bytes[a]? := by
  refine ⟨memOfBytes_wf rfl 0 bytes, ?_, fun a => ?_⟩
  · have : bytes.length < 2 ^ 32 := h
    simp [launchBd, State.setBd]
    omega
  · have := memRead_memOfBytes (sp := .input) rfl 0 bytes a
    simpa [launchBd, State.setBd] using this

/-- A launch loads all of TILE and clears the raster (R100). -/
theorem launchTrd_loaded (bytes : List Byte) (palette : Palette) (s : State) :
    MemWf .tile (launchTrd bytes palette s).trd.tile ∧ (launchTrd bytes palette s).trd.raster = [] ∧
      ∀ a, memRead .tile (launchTrd bytes palette s).trd.tile a = bytes[a]? := by
  refine ⟨memOfBytes_wf rfl 0 bytes, rfl, fun a => ?_⟩
  have := memRead_memOfBytes (sp := .tile) rfl 0 bytes a
  simpa [launchTrd, State.setTrd] using this

/-- What the fetch finds: the loaded bytes, as many as lie below the length. -/
theorem inBytes_ok {sp : Space} {m : List Host.Cell} {len a count : Nat} {bytes : List Byte}
    (h : inBytes sp m len a count = .ok bytes) :
    bytes.length = min count (len - a) ∧ ∀ j < bytes.length, memRead sp m (a + j) = bytes[j]? := by
  induction count generalizing a bytes with
  | zero => cases h; simp
  | succ count ih =>
    unfold inBytes at h
    split at h
    · cases h
      simp
      omega
    · split at h
      · cases h
      · next v hv =>
        split at h
        · cases h
        · next vs hvs =>
          cases h
          obtain ⟨hlen, hj⟩ := ih hvs
          refine ⟨by simp [hlen]; omega, fun j hlt => ?_⟩
          cases j with
          | zero => simpa using hv
          | succ j =>
            have := hj j (by simpa using hlt)
            rw [show a + 1 + j = a + (j + 1) by omega] at this
            simpa using this

/-- Where IN is loaded the fetch finds no hole. -/
theorem inBytes_of_reads {sp : Space} {m : List Host.Cell} {len a count : Nat} {bytes : List Byte}
    (hlen : bytes.length = min count (len - a)) (hj : ∀ j < bytes.length, memRead sp m (a + j) = bytes[j]?) :
    inBytes sp m len a count = .ok bytes := by
  induction count generalizing a bytes with
  | zero =>
    cases bytes with
    | nil => rfl
    | cons v vs => simp at hlen
  | succ count ih =>
    unfold inBytes
    split
    · next hle =>
      cases bytes with
      | nil => rfl
      | cons v vs => simp at hlen; omega
    · next hlt =>
      cases bytes with
      | nil => simp at hlen; omega
      | cons v vs =>
        have hv : memRead sp m a = some v := by simpa using hj 0 (by simp)
        have hvs : inBytes sp m len (a + 1) count = .ok vs := by
          refine ih (by simp at hlen; omega) fun j hjl => ?_
          have := hj (j + 1) (by simpa using hjl)
          rw [show a + 1 + j = a + (j + 1) by omega]
          simpa using this
        simp [hv, hvs]

/-- A fetch fails on a hole only at an address below the length that has no value. -/
theorem inBytes_error {sp : Space} {m : List Host.Cell} {len a count h : Nat}
    (he : inBytes sp m len a count = .error h) : h < len ∧ memRead sp m h = none := by
  induction count generalizing a with
  | zero => cases he
  | succ count ih =>
    unfold inBytes at he
    split at he
    · cases he
    · next hlt =>
      split at he
      · next hn =>
        cases he
        exact ⟨by omega, hn⟩
      · split at he
        · next h' hr =>
          cases he
          exact ih hr
        · cases he

end Sys2Proof.Machine
end

