-- ==== Sys2Proof/Laws/Step.lean ====
section
/-! SUPPORT. Laws/Step.lean: everything a meaning, an engine's step, a host action and a step of the machine can do when
it answers a next state; later proofs cite these instead of unfolding. -/

namespace Sys2Proof.Machine

variable {s t : State}

/-- The phases in which BD is busy (R25). -/
theorem status_eq_busy {b : Bd} :
    b.status = .busy ↔ b.phase = .hdr ∨ b.phase = .flag ∨ b.phase = .unit ∨ b.phase = .copy := by
  unfold Bd.status
  cases b.phase <;> simp [Phase.status]

/-- What the selection of each unit says of BD's registers (R70, R88). -/
theorem selects_hdr {b : Bd} : b.selects = some .hdr ↔ b.phase = .hdr := by
  unfold Bd.selects
  cases b.phase <;> simp [unitOf]
  all_goals (split <;> simp)

theorem selects_flag {b : Bd} : b.selects = some .flag ↔ b.phase = .flag ∧ b.dst < b.n := by
  unfold Bd.selects
  cases b.phase <;> simp [unitOf]
  all_goals (split <;> simp)

theorem selects_lit {b : Bd} :
    b.selects = some .lit ↔
      b.phase = .unit ∧ (b.dst < b.n ∧ b.bit ≤ 7) ∧ flagAt b.flags b.bit.toNat = false := by
  unfold Bd.selects
  cases b.phase <;> simp
  cases flagAt b.flags b.bit.toNat <;> simp [unitOf]

theorem selects_copy {b : Bd} :
    b.selects = some .copy ↔
      b.phase = .unit ∧ (b.dst < b.n ∧ b.bit ≤ 7) ∧ flagAt b.flags b.bit.toNat = true := by
  unfold Bd.selects
  cases b.phase <;> simp
  cases flagAt b.flags b.bit.toNat <;> simp [unitOf]

/-- `HDR` answers its own effect or the failure of a missing byte. -/
theorem execHdr_next {n : BitVec 24} (h : execHdr n s = .next t) :
    s.bd.selects = some .hdr ∧
      ((s.bd.holds 4 ∧
          t = s.setBd
            { s.bd with
              n := n
              src := s.bd.offset + 4
              dst := 0
              out := []
              phase := if n = 0 then .done else .flag }) ∨
        (¬ s.bd.holds 4 ∧ t = raise .truncatedInput s)) := by
  unfold execHdr at h
  split at h
  · next hs =>
    split at h
    · next hh => cases h; exact ⟨hs, .inl ⟨hh, rfl⟩⟩
    · next hh => cases h; exact ⟨hs, .inr ⟨hh, rfl⟩⟩
  · cases h

/-- `FLAG` answers its own effect or the failure of a missing byte. -/
theorem execFlag_next {f : BitVec 8} (h : execFlag f s = .next t) :
    s.bd.selects = some .flag ∧
      ((s.bd.holds 1 ∧
          t = s.setBd { s.bd with flags := f, src := s.bd.src + 1, bit := 0, phase := .unit }) ∨
        (¬ s.bd.holds 1 ∧ t = raise .truncatedInput s)) := by
  unfold execFlag at h
  split at h
  · next hs =>
    split at h
    · next hh => cases h; exact ⟨hs, .inl ⟨hh, rfl⟩⟩
    · next hh => cases h; exact ⟨hs, .inr ⟨hh, rfl⟩⟩
  · cases h

/-- `LIT` answers its own effect or the failure of a missing byte. -/
theorem execLit_next {d : BitVec 8} (h : execLit d s = .next t) :
    s.bd.selects = some .lit ∧
      ((s.bd.holds 1 ∧
          t = s.setBd
            { s.bd with
              bit := s.bd.bit + 1
              out := memWrite .out s.bd.out s.bd.dst.toNat d
              src := s.bd.src + 1
              dst := s.bd.dst + 1
              phase := nextPhase s.bd.n (s.bd.dst + 1) (s.bd.bit + 1) }) ∨
        (¬ s.bd.holds 1 ∧ t = raise .truncatedInput s)) := by
  unfold execLit at h
  split at h
  · next hs =>
    split at h
    · next hh => cases h; exact ⟨hs, .inl ⟨hh, rfl⟩⟩
    · next hh => cases h; exact ⟨hs, .inr ⟨hh, rfl⟩⟩
  · cases h

/-- `COPY` decode answers its own effect, the failure of a missing byte, or that of a bad displacement, in that order. -/
theorem execCopy_next {clen : BitVec 5} {cdisp : BitVec 13} (h : execCopy clen cdisp s = .next t) :
    s.bd.selects = some .copy ∧
      ((s.bd.holds 2 ∧ cdisp.toNat ≤ s.bd.dst.toNat ∧
          t = s.setBd
            { s.bd with
              bit := s.bd.bit + 1
              src := s.bd.src + 2
              cdisp := cdisp
              crem := clen
              phase := .copy }) ∨
        (s.bd.holds 2 ∧ s.bd.dst.toNat < cdisp.toNat ∧ t = raise .corruptData s) ∨
        (¬ s.bd.holds 2 ∧ t = raise .truncatedInput s)) := by
  unfold execCopy at h
  split at h
  · next hs =>
    split at h
    · next hh =>
      split at h
      · next hc => cases h; exact ⟨hs, .inr (.inl ⟨hh, hc, rfl⟩)⟩
      · next hc => cases h; exact ⟨hs, .inl ⟨hh, by omega, rfl⟩⟩
    · next hh => cases h; exact ⟨hs, .inr (.inr ⟨hh, rfl⟩)⟩
  · cases h

/-- The `COPY` byte step answers its one effect. -/
theorem copyByte_next (h : copyByte s = .next t) :
    s.bd.copying ∧ ∃ v, memRead .out s.bd.out (s.bd.dst.toNat - s.bd.cdisp.toNat) = some v ∧
      t = s.setBd
        { s.bd with
          out := memWrite .out s.bd.out s.bd.dst.toNat v
          dst := s.bd.dst + 1
          crem := s.bd.crem - 1
          phase :=
            if s.bd.dst + 1 = s.bd.n ∨ s.bd.crem - 1 = 0 then
              nextPhase s.bd.n (s.bd.dst + 1) s.bd.bit
            else .copy } := by
  unfold copyByte at h
  split at h
  · next hc =>
    split at h
    · cases h
    · next v hv => cases h; exact ⟨hc, v, hv, rfl⟩
  · cases h

/-- `PIX2` answers its one effect. -/
theorem execPix2_next {hi lo : BitVec 4} (h : execPix2 hi lo s = .next t) :
    s.trd.decoding ∧
      t = s.setTrd
        { s.trd with
          raster := putPair s.trd.raster s.trd.pal s.trd.k.toNat hi lo
          k := s.trd.k + 1
          tphase :=
            if s.trd.k.toNat + 1 = Config.tileStreamBytes ∨ s.trd.k.toNat + 1 = s.trd.tlen then .tdone
            else .tbusy } := by
  unfold execPix2 at h
  split at h
  · next hd => cases h; exact ⟨hd, rfl⟩
  · cases h

/-- Fetching and running a unit answers what the unit answers, or raises what its bytes raise. -/
theorem runUnit_next {kind : UnitKind} (h : runUnit kind s = .next t) :
    (∃ i, fetchBd s.bd kind = .unit i ∧ exec i s = .next t) ∨
      (∃ e, fetchBd s.bd kind = .failure e ∧ t = raise e s) := by
  unfold runUnit at h
  split at h
  · next i hi => exact .inl ⟨i, hi, h⟩
  · next e he => cases h; exact .inr ⟨e, he, rfl⟩
  · cases h

/-- A step of BD that answers does nothing at rest, copies one byte, or fetches the selected unit. -/
theorem bdStep_next (h : bdStep s = .next t) :
    ((s.bd.phase = .idle ∨ s.bd.phase = .done ∨ s.bd.phase = .err) ∧ t = s) ∨
      (s.bd.phase = .copy ∧ copyByte s = .next t) ∨
      (∃ kind, s.bd.selects = some kind ∧ runUnit kind s = .next t) := by
  unfold bdStep at h
  have hfetch : ∀ (h : (match s.bd.selects with
      | none => Host.Outcome.refused Refusal.notSelected
      | some kind => runUnit kind s) = .next t),
      ∃ kind, s.bd.selects = some kind ∧ runUnit kind s = .next t := by
    intro h
    split at h
    · cases h
    · next kind hk => exact ⟨kind, hk, h⟩
  split at h
  · next hp => cases h; exact .inl ⟨.inl hp, rfl⟩
  · next hp => cases h; exact .inl ⟨.inr (.inl hp), rfl⟩
  · next hp => cases h; exact .inl ⟨.inr (.inr hp), rfl⟩
  · next hp => exact .inr (.inl ⟨hp, h⟩)
  · exact .inr (.inr (hfetch h))
  · exact .inr (.inr (hfetch h))
  · exact .inr (.inr (hfetch h))

/-- A step of TRD that answers does nothing at rest, or runs the tile byte at `k`. -/
theorem trdStep_next (h : trdStep s = .next t) :
    (s.trd.tphase ≠ .tbusy ∧ t = s) ∨
      (s.trd.decoding ∧ ∃ v, memRead .tile s.trd.tile s.trd.k.toNat = some v ∧
        exec (decodePix2 v) s = .next t) := by
  unfold trdStep at h
  split at h
  · next hp => cases h; exact .inl ⟨by simp [hp], rfl⟩
  · next hp => cases h; exact .inl ⟨by simp [hp], rfl⟩
  · split at h
    · next hd =>
      split at h
      · cases h
      · next v hv => exact .inr ⟨hd, v, hv, h⟩
    · cases h

theorem hostStart_next {bytes : List Byte} {offset : BitVec 32} (h : hostStart bytes offset s = .next t) :
    s.bd.status ≠ .busy ∧ bytes.length < Config.lenBound ∧ t = launchBd bytes offset s := by
  unfold hostStart at h
  split at h
  · cases h
  · next hb =>
    split at h
    · next hl => cases h; exact ⟨hb, hl, rfl⟩
    · cases h

theorem hostTstart_next {bytes : List Byte} {palette : Palette} (h : hostTstart bytes palette s = .next t) :
    s.trd.tstatus ≠ .tbusy ∧ t = launchTrd bytes palette s := by
  unfold hostTstart at h
  split at h
  · cases h
  · next hb => cases h; exact ⟨hb, rfl⟩

/-- A sprite launch that answers either skips TRD or launches it. -/
theorem hostTstartSprite_next {gfx pal : Nat} (h : hostTstartSprite gfx pal s = .next t) :
    t = s ∨ (s.trd.tstatus ≠ .tbusy ∧ ∃ bytes palette, t = launchTrd bytes palette s) := by
  unfold hostTstartSprite at h
  split at h
  · unfold launchSprite at h
    split at h
    · split at h
      · cases h
      · next palette _ =>
        obtain ⟨hb, rfl⟩ := hostTstart_next h
        exact .inr ⟨hb, _, palette, rfl⟩
    all_goals exact .inl (by cases h; rfl)
  · cases h
  · cases h

/-- The sprite launch from the two responses the host names. -/
theorem hostTstartSprite_of_taken {gfx pal : Nat} {rg rp : BdResponse} (hg : s.host.taken[gfx]? = some rg)
    (hp : s.host.taken[pal]? = some rp) : hostTstartSprite gfx pal s = launchSprite rg rp s := by
  simp [hostTstartSprite, hg, hp]

/-- A host action that answers changes one engine by a launch, both by a reset, the conversion, or only what the host
holds. -/
theorem hostAct_next {a : HostAction} (h : hostAct a s = .next t) :
    (∃ bytes offset, a = .start bytes offset ∧ s.bd.status ≠ .busy ∧ bytes.length < Config.lenBound ∧
        t = launchBd bytes offset s) ∨
      (∃ bytes palette, a = .tstart bytes palette ∧ s.trd.tstatus ≠ .tbusy ∧
        t = launchTrd bytes palette s) ∨
      (∃ gfx pal, a = .tstartSprite gfx pal ∧ (t = s ∨
        (s.trd.tstatus ≠ .tbusy ∧ ∃ bytes palette, t = launchTrd bytes palette s))) ∨
      ((a = .takeBd ∨ a = .takeTrd) ∧ ∃ hs : HostSide, t = s.setHost hs) ∨
      (∃ c p, a = .convert c p ∧ ∃ cv : Conv, t = s.setConv cv) ∨
      (a = .reset ∧ t = resetEngines s) := by
  unfold hostAct at h
  split at h
  · obtain ⟨hb, hl, rfl⟩ := hostStart_next h
    exact .inl ⟨_, _, rfl, hb, hl, rfl⟩
  · obtain ⟨hb, rfl⟩ := hostTstart_next h
    exact .inr (.inl ⟨_, _, rfl, hb, rfl⟩)
  · unfold hostTakeBd at h
    split at h
    · cases h
    · cases h; exact .inr (.inr (.inr (.inl ⟨.inl rfl, _, rfl⟩)))
  · unfold hostTakeTrd at h
    split at h
    · cases h
    · cases h; exact .inr (.inr (.inr (.inl ⟨.inr rfl, _, rfl⟩)))
  · exact .inr (.inr (.inl ⟨_, _, rfl, hostTstartSprite_next h⟩))
  · refine .inr (.inr (.inr (.inr (.inl ⟨_, _, rfl, ?_⟩))))
    unfold hostConvert decodeColor exec execColor at h
    cases h
    exact ⟨_, rfl⟩
  · cases h; exact .inr (.inr (.inr (.inr (.inr ⟨rfl, rfl⟩))))

/-- A step that answers is a host action at the head of the agenda, a step of one engine (with the agenda as the moves
leave it), or a wait that is over. -/
theorem step_next (h : step s = .next t) :
    (∃ a rest, s.agenda = .host a :: rest ∧ hostAct a (s.setAgenda rest) = .next t) ∨
      (∃ ms, bdStep (s.setAgenda ms) = .next t) ∨
      (∃ ms, trdStep (s.setAgenda ms) = .next t) ∨
      (∃ ms, t = s.setAgenda ms) := by
  unfold step turn at h
  split at h
  · next hnil =>
    have hs : s = s.setAgenda [] := by cases s; simp_all [State.setAgenda]
    unfold freeRun at h
    split at h
    · exact .inr (.inl ⟨[], by rwa [← hs]⟩)
    · exact .inr (.inr (.inl ⟨[], by rwa [← hs]⟩))
  · next m rest hcons =>
    unfold perform at h
    split at h
    · next a => exact .inl ⟨a, rest, hcons, h⟩
    · exact .inr (.inl ⟨rest, h⟩)
    · exact .inr (.inr (.inl ⟨rest, h⟩))
    · split at h
      · exact .inr (.inl ⟨_, h⟩)
      · cases h; exact .inr (.inr (.inr ⟨rest, rfl⟩))
    · split at h
      · exact .inr (.inr (.inl ⟨_, h⟩))
      · cases h; exact .inr (.inr (.inr ⟨rest, rfl⟩))

end Sys2Proof.Machine
end

