-- ==== Sys2Proof/Laws/Fetch.lean ====
section
/-! SUPPORT. Laws/Fetch.lean: what BD's fetch finds, and a step of BD taken apart into the unit it runs or the failure its
bytes raise. -/

namespace Sys2Proof.Machine

/-- The unit decoded is of the kind asked for. -/
theorem decode_kind {kind : UnitKind} {bytes rest : List Byte} {i : Instr} (h : decode kind bytes = .ok (i, rest)) : i.kind = kind := by
  cases kind <;> simp only [decode, decodeHdr, decodeByte, decodeCopy, decodeColorBytes] at h
  all_goals (repeat' split at h)
  all_goals (cases h <;> rfl)

/-- Bytes with one missing are fewer than the unit's. -/
theorem decode_missing {kind : UnitKind} {bytes : List Byte} (h : decode kind bytes = .error .missingByte) : bytes.length < kind.size := by
  cases kind
  · rcases bytes with _ | ⟨t, _ | ⟨a, _ | ⟨b, _ | ⟨c, r⟩⟩⟩⟩ <;> simp [decode, decodeHdr, UnitKind.size] at h ⊢
    split at h <;> simp at h
  all_goals (rcases bytes with _ | ⟨t, _ | ⟨a, r⟩⟩ <;> simp [decode, decodeByte, decodeCopy, decodeColorBytes, UnitKind.size] at h ⊢)

/-- Only a header has a tag to mismatch. -/
theorem decode_tag {kind : UnitKind} {bytes : List Byte} (h : decode kind bytes = .error .tagMismatch) :
    kind = .hdr ∧ ∃ t r, bytes = t :: r ∧ t ≠ 0x10 := by
  cases kind
  · refine ⟨rfl, ?_⟩
    rcases bytes with _ | ⟨t, r⟩
    · simp [decode, decodeHdr] at h
    · refine ⟨t, r, rfl, ?_⟩
      rintro rfl
      simp only [decode, decodeHdr, Config.tag] at h
      simp at h
      split at h <;> simp at h
  all_goals (rcases bytes with _ | ⟨t, _ | ⟨a, r⟩⟩ <;> simp [decode, decodeByte, decodeCopy, decodeColorBytes] at h)

/-- A fetched unit is what the loaded bytes decode to. -/
theorem fetchBd_unit {b : Bd} {kind : UnitKind} {i : Instr} (h : fetchBd b kind = .unit i) :
    ∃ bytes rest, inBytes .input b.input b.len.toNat b.cursor kind.size = .ok bytes ∧
      decode kind bytes = .ok (i, rest) := by
  unfold fetchBd at h
  split at h
  · cases h
  · next bytes hb =>
    split at h
    · next j rest hd => cases h; exact ⟨bytes, rest, hb, hd⟩
    · cases h

/-- A fetch that fails found bytes that are no unit. -/
theorem fetchBd_failure {b : Bd} {kind : UnitKind} {e : Failure} (h : fetchBd b kind = .failure e) :
    ∃ bytes r, inBytes .input b.input b.len.toNat b.cursor kind.size = .ok bytes ∧
      decode kind bytes = .error r ∧ e = failureOf r := by
  unfold fetchBd at h
  split at h
  · cases h
  · next bytes hb =>
    split at h
    · cases h
    · next r hd => cases h; exact ⟨bytes, r, hb, hd, rfl⟩

/-- Every next state of BD's step: nothing at rest, one copied byte, one of the four units, or a failure of the bytes. -/
theorem bdStep_cases {s t : State} (h : bdStep s = .next t) :
    ((s.bd.phase = .idle ∨ s.bd.phase = .done ∨ s.bd.phase = .err) ∧ t = s) ∨
    (s.bd.phase = .copy ∧ copyByte s = .next t) ∨
    (∃ n, fetchBd s.bd .hdr = .unit (.hdr n) ∧ execHdr n s = .next t) ∨
    (∃ f, fetchBd s.bd .flag = .unit (.flag f) ∧ execFlag f s = .next t) ∨
    (∃ d, fetchBd s.bd .lit = .unit (.lit d) ∧ execLit d s = .next t) ∨
    (∃ c d, fetchBd s.bd .copy = .unit (.copy c d) ∧ execCopy c d s = .next t) ∨
    (∃ kind e, s.bd.selects = some kind ∧ fetchBd s.bd kind = .failure e ∧ t = raise e s) := by
  rcases bdStep_next h with h | h | ⟨kind, hk, h⟩
  · exact .inl h
  · exact .inr (.inl h)
  · rcases runUnit_next h with ⟨i, hi, he⟩ | ⟨e, he, rfl⟩
    · obtain ⟨bytes, rest, -, hd⟩ := fetchBd_unit hi
      have hik := decode_kind hd
      have hne : kind ≠ .pix2 ∧ kind ≠ .color := by
        unfold Bd.selects unitOf at hk
        constructor <;> rintro rfl <;> split at hk <;> simp at hk
        all_goals (obtain ⟨_, hk⟩ := hk; split at hk <;> simp at hk)
      subst hik
      cases i
      · exact .inr (.inr (.inl ⟨_, hi, he⟩))
      · exact .inr (.inr (.inr (.inl ⟨_, hi, he⟩)))
      · exact .inr (.inr (.inr (.inr (.inl ⟨_, hi, he⟩))))
      · exact .inr (.inr (.inr (.inr (.inr (.inl ⟨_, _, hi, he⟩)))))
      · simp [Instr.kind] at hne
      · simp [Instr.kind] at hne
    · exact .inr (.inr (.inr (.inr (.inr (.inr ⟨kind, e, hk, he, rfl⟩)))))

/-- Sequencing never enters `ERR` (R95). -/
theorem nextPhase_ne_err {n dst : BitVec 24} {bit : BitVec 4} : nextPhase n dst bit ≠ .err := by
  unfold nextPhase
  split
  · simp
  · split <;> simp

/-- A position that selects a unit is a phase whose step fetches. -/
theorem bdStep_of_selects {s : State} {kind : UnitKind} (h : s.bd.selects = some kind) :
    bdStep s = runUnit kind s := by
  unfold bdStep
  split
  · next hp => simp [Bd.selects, hp] at h
  · next hp => simp [Bd.selects, hp] at h
  · next hp => simp [Bd.selects, hp] at h
  · next hp => simp [Bd.selects, hp] at h
  all_goals rw [h]

/-- A copy in progress takes its byte step. -/
theorem bdStep_of_copy {s : State} (h : s.bd.phase = .copy) : bdStep s = copyByte s := by
  unfold bdStep
  split <;> simp_all

/-- BD at rest does nothing. -/
theorem bdStep_of_rest {s : State} (h : s.bd.status ≠ .busy) : bdStep s = .next s := by
  rw [Ne, status_eq_busy] at h
  unfold bdStep
  split <;> simp_all

/-- TRD at rest does nothing. -/
theorem trdStep_of_rest {s : State} (h : s.trd.tphase ≠ .tbusy) : trdStep s = .next s := by
  unfold trdStep
  split
  · rfl
  · rfl
  · next hp => exact absurd hp h

/-- TRD decoding runs the byte at `k`. -/
theorem trdStep_of_decoding {s : State} {v : Byte} (h : s.trd.decoding)
    (hv : memRead .tile s.trd.tile s.trd.k.toNat = some v) : trdStep s = exec (decodePix2 v) s := by
  unfold trdStep
  split
  · next hp => rw [h.1] at hp; cases hp
  · next hp => rw [h.1] at hp; cases hp
  · rw [if_pos h, hv]

/-- Bytes loaded at the cursor are what the fetch decodes. -/
theorem fetchBd_of_reads {b : Bd} {kind : UnitKind} {bytes rest : List Byte} {i : Instr}
    (hlen : bytes.length = kind.size) (hin : b.cursor + kind.size ≤ b.len.toNat)
    (hj : ∀ j < kind.size, memRead .input b.input (b.cursor + j) = bytes[j]?)
    (hd : decode kind bytes = .ok (i, rest)) : fetchBd b kind = .unit i := by
  have hb : inBytes .input b.input b.len.toNat b.cursor kind.size = .ok bytes :=
    inBytes_of_reads (by omega) fun j hlt => hj j (by omega)
  simp [fetchBd, hb, hd]

end Sys2Proof.Machine
end

