-- ==== Sys2Proof/Laws/PerInstr.lean ====
section
/-! SUPPORT. Laws/PerInstr.lean: per instruction, its encoding has the length its position gives the decoder (R71). -/

namespace Sys2Proof.Laws.EncodeLength

/-- The encoding of a unit is as long as its position says. -/
def Statement (i : Instr) : Prop := (encode i).length = i.kind.size

theorem hdr (n : BitVec 24) : Statement (.hdr n) := rfl

theorem flag (f : BitVec 8) : Statement (.flag f) := rfl

theorem lit (d : BitVec 8) : Statement (.lit d) := rfl

theorem copy (clen : BitVec 5) (cdisp : BitVec 13) : Statement (.copy clen cdisp) := rfl

theorem pix2 (hi lo : BitVec 4) : Statement (.pix2 hi lo) := rfl

theorem color (x : BitVec 1) (blue green red : BitVec 5) : Statement (.color x blue green red) := rfl

end Sys2Proof.Laws.EncodeLength
end

