-- ==== Sys2Proof/Tests/Slice0.lean ====
section
/-! SUPPORT. Tests/Slice0.lean: small checks whose expected values are the spec's worked examples (95_test_vectors.md, and
the examples of the unit rules), and for each statement with hypotheses a state and operands that meet them. -/

namespace Sys2Proof.Tests

open Sys2Proof Sys2Proof.Machine

/-! ### Well-formedness: one ill-formed term for each check (R67, R68) -/

theorem test_wf_copy_too_short : (Instr.copy 2 1).wf = false := by decide
theorem test_wf_copy_too_long : (Instr.copy 19 1).wf = false := by decide
theorem test_wf_copy_no_displacement : (Instr.copy 3 0).wf = false := by decide
theorem test_wf_copy_displacement_too_far : (Instr.copy 3 4097).wf = false := by decide
theorem test_wf_copy_extremes : (Instr.copy 3 1).wf = true ∧ (Instr.copy 18 4096).wf = true := by decide

/-! ### Decoding words written out from the encodings -/

/-- R45: `10 56 34 12` gives N = 0x123456. -/
theorem test_decode_hdr : decode .hdr [0b00010000, 0x56, 0x34, 0x12] = .ok (.hdr 0x123456, []) := by decide

/-- D2 and D3: a wrong tag is reported although length bytes are missing; a good tag alone is short. -/
theorem test_decode_hdr_rejects :
    decode .hdr [0x11] = .error .tagMismatch ∧ decode .hdr [0x10] = .error .missingByte := by decide

theorem test_decode_flag : decode .flag [0b01000000] = .ok (.flag 0x40, []) := by decide

/-- D21: a literal `10` is data. -/
theorem test_decode_lit : decode .lit [0x10, 0x77] = .ok (.lit 0x10, [0x77]) := by decide

/-- D11, D15 and D16 of the copy-word table. -/
theorem test_decode_copy :
    decode .copy [0x0F, 0xFF] = .ok (.copy 3 4096, []) ∧ decode .copy [0x42, 0x00] = .ok (.copy 7 513, []) ∧
      decode .copy [0xA1, 0x23] = .ok (.copy 13 292, []) := by decide

/-- R69: `clen = 18, cdisp = 3` is `F0 02`. -/
theorem test_encode_copy : encode (.copy 18 3) = [0xF0, 0x02] := by decide

/-- R48: byte `21` is index 1 on the left, index 2 on the right. -/
theorem test_decode_pix2 : decode .pix2 [0x21] = .ok (.pix2 2 1, []) := by decide

/-- D48: `0x1234` has red 20, green 17, blue 4; in a buffer the low byte is first. -/
theorem test_decode_color : decode .color [0x34, 0x12] = .ok (.color 0 4 17 20, []) := by decide

theorem test_table_word_hdr : decodeTableWord 32 0x10040000 = some (.hdr 4) := by decide

/-- The table's reading of a copy word: b1 is bits 15:8. -/
theorem test_table_word_copy : decodeTableWord 16 0xA123 = some (.copy 13 292) := by decide

/-! ### Steps: states on the trace of program P2, `10 04 00 00 40 41 00 00` -/

/-- Whether an outcome is a next state with a property. -/
def nextIs (o : Host.Outcome State Fault Refusal) (p : State → Bool) : Bool :=
  match o with
  | .next t => p t
  | .fault _ => false
  | .refused _ => false

/-- BD with IN loaded and OFFSET 0. -/
def loaded (bytes : List Byte) (phase : Phase) : Bd :=
  { Bd.reset with input := memOfBytes 0 bytes, len := BitVec.ofNat 32 bytes.length, phase := phase }

def p2 : List Byte := [0x10, 0x04, 0x00, 0x00, 0x40, 0x41, 0x00, 0x00]

def withBd (b : Bd) : State := State.reset.setBd b

def atHdr : State := withBd (loaded p2 .hdr)
def atFlag : State := withBd { loaded p2 .flag with n := 4, src := 4 }
def atLit : State := withBd { loaded p2 .unit with n := 4, src := 5, flags := 0x40 }
def atCopy : State :=
  withBd { loaded p2 .unit with n := 4, src := 6, dst := 1, flags := 0x40, bit := 1, out := [(0, 0x41)] }
def atCopyByte : State :=
  withBd { loaded p2 .copy with
    n := 4, src := 8, dst := 1, flags := 0x40, bit := 2, crem := 3, cdisp := 1, out := [(0, 0x41)] }
def atDone : State :=
  withBd { loaded p2 .done with
    n := 4, src := 8, dst := 4, flags := 0x40, bit := 2, crem := 0, cdisp := 1
    out := [(0, 0x41), (1, 0x41), (2, 0x41), (3, 0x41)] }

/-- P2, step HDR: src 4, dst 0, phase FLAG. -/
theorem test_step_hdr :
    nextIs (step atHdr) (fun t => t.bd.n == 4 && t.bd.src == 4 && t.bd.dst == 0 && t.bd.phase == .flag) = true := by
  decide

/-- D5: `10 00 00 00` completes at once with an empty buffer. -/
theorem test_step_hdr_empty :
    nextIs (step (withBd (loaded [0x10, 0, 0, 0] .hdr)))
      (fun t => t.bd.response == some (.ok []) && t.bd.src == 4) = true := by decide

/-- P2, step FLAG: src 5, bit 0, phase UNIT. -/
theorem test_step_flag :
    nextIs (step atFlag) (fun t => t.bd.flags == 0x40 && t.bd.src == 5 && t.bd.bit == 0 && t.bd.phase == .unit) =
      true := by decide

/-- P2, step LIT: OUT[0] = 41, src 6, dst 1, bit 1. -/
theorem test_step_lit :
    nextIs (step atLit) (fun t => t.bd.out == [(0, 0x41)] && t.bd.src == 6 && t.bd.dst == 1 && t.bd.bit == 1) =
      true := by decide

/-- D17: the eighth literal completes the block, so no flag byte is asked for. -/
theorem test_step_lit_last_of_both :
    nextIs (step (withBd { loaded [0x55] .unit with n := 1, bit := 7 }))
      (fun t => t.bd.phase == .done && t.bd.bit == 8) = true := by decide

/-- P2, step COPY decode: src 8, crem 3, cdisp 1, phase COPY, nothing written. -/
theorem test_step_copy :
    nextIs (step atCopy)
      (fun t => t.bd.src == 8 && t.bd.crem == 3 && t.bd.cdisp == 1 && t.bd.phase == .copy && t.bd.dst == 1) =
      true := by decide

/-- P2, first COPY byte step: OUT[1] = OUT[0]. -/
theorem test_step_copy_byte :
    nextIs (step atCopyByte)
      (fun t => t.bd.out == [(0, 0x41), (1, 0x41)] && t.bd.dst == 2 && t.bd.crem == 2 && t.bd.phase == .copy) =
      true := by decide

/-- D27: cut short after one byte, 17 left in `crem`, phase DONE. -/
theorem test_step_copy_cut_short :
    nextIs (step (withBd { atCopyByte.bd with n := 2, crem := 18 }))
      (fun t => t.bd.phase == .done && t.bd.crem == 17) = true := by decide

/-- D32: `cdisp = 5` at `dst = 2` is CorruptData. -/
theorem test_step_copy_corrupt :
    nextIs (step (withBd { loaded [0x00, 0x04] .unit with n := 8, dst := 2, flags := 0x20, bit := 2 }))
      (fun t => t.bd.phase == .err && t.bd.errcode.bits == 3 && t.bd.response == some (.err .corruptData)) =
      true := by decide

/-- D36: the missing second byte is reported, not the displacement. -/
theorem test_step_copy_truncated :
    nextIs (step (withBd { loaded [0xFF] .unit with n := 5, dst := 1, flags := 0x40, bit := 1 }))
      (fun t => t.bd.errcode.bits == 2) = true := by decide

/-- D8b: a wrong tag is InvalidHeader. -/
theorem test_step_hdr_invalid :
    nextIs (step (withBd (loaded [0xAA] .hdr))) (fun t => t.bd.errcode.bits == 1) = true := by decide

/-- TRD decoding `TILE[k]` with the palette of D64: PAL[0] = 7FFF, PAL[1] = 001F, PAL[2] = 03E0. -/
def atTile (k : BitVec 12) (v : Byte) (tlen : Nat) : State :=
  State.reset.setTrd
    { Trd.reset with
      tile := [(k.toNat, v)]
      tlen := tlen
      pal := #v[0x7FFF, 0x001F, 0x03E0, 0, 0, 0, 0, 0, 0, 0, 0, 0, 0, 0, 0, 0]
      k := k
      tphase := .tbusy }

/-- D64 and D68: index 1 left, index 2 right; a one-byte stream is done. -/
theorem test_step_pix2 :
    nextIs (step (atTile 0 0x21 1))
      (fun t => t.trd.raster == [(0, 0xF8), (3, 0xFF), (5, 0xF8), (7, 0xFF)] && t.trd.tphase == .tdone) =
      true := by decide

/-- D66: at `k = 32` index 0 is written transparent with PAL[0]'s colour. -/
theorem test_step_pix2_second_tile :
    nextIs (step (atTile 32 0x10 64))
      (fun t => t.trd.raster == [(32, 0xF8), (33, 0xF8), (34, 0xF8), (36, 0xF8), (39, 0xFF)] &&
        t.trd.tphase == .tbusy && t.trd.k == 33) = true := by decide

/-- D63: the last tile byte's pixels stand at 16376 and 16380. -/
theorem test_geometry_last :
    rasterAddr (leftColumn 2047) (pixelRow 2047) = 16376 ∧ rasterAddr (rightColumn 2047) (pixelRow 2047) = 16380 := by
  decide

/-- D48: `RGBA(0x1234, 5) = (160, 136, 32, 255)`. -/
theorem test_step_color :
    nextIs (step (State.reset.setAgenda [.host (.convert 0x1234 5)]))
      (fun t => t.conv.rgba == { r := 160, g := 136, b := 32, a := 255 }) = true := by decide

/-- D40 and D47: index 0 keeps its colour and is transparent; bit 15 is ignored. -/
theorem test_rgba : rgba 0x7FFF 0 = { r := 248, g := 248, b := 248, a := 0 } ∧
    rgba 0xFFFF 3 = { r := 248, g := 248, b := 248, a := 255 } := by decide

/-- D71: the first values of the packed palette. -/
theorem test_pack_palette :
    packWords 6 [0xFF, 0x7F, 0x1F, 0x00, 0xE0, 0x03, 0x00, 0x7C, 0x00, 0x80, 0x00, 0x00] =
      some [0x7FFF, 0x001F, 0x03E0, 0x7C00, 0x8000, 0x0000] := by decide

/-- D24: the one-function form on a period-2 pattern. -/
theorem test_decompress_pattern :
    decompress [0x10, 0x06, 0x00, 0x00, 0x20, 0x41, 0x42, 0x10, 0x01, 0x99] 0 =
      .ok [0x41, 0x42, 0x41, 0x42, 0x41, 0x42] := by decide

/-- A table word placed after reset is the next step's unit. -/
theorem test_with_fetch_word :
    nextIs (step (State.reset.withFetchWord 32 0x10040000)) (fun t => t.bd.n == 4 && t.bd.phase == .flag) = true := by
  decide

/-! ### Witnesses: states and operands that meet each statement's hypotheses -/

theorem witness_host_reset : (atLit.setAgenda [.host .reset]).agenda = .host .reset :: [] := by decide

theorem witness_start :
    let s := atDone.setAgenda [.host (.start p2 0)]
    s.agenda = .host (.start p2 0) :: [] ∧ s.bd.status ≠ .busy ∧ p2.length < 2 ^ 32 := by decide

theorem witness_start_busy :
    let s := atLit.setAgenda [.host (.start p2 0)]
    s.agenda = .host (.start p2 0) :: [] ∧ s.bd.status = .busy := by decide

theorem witness_tstart :
    let s := State.reset.setAgenda [.host (.tstart [0x21] (Vector.replicate 16 0))]
    s.agenda = .host (.tstart [0x21] (Vector.replicate 16 0)) :: [] ∧ s.trd.tstatus ≠ .tbusy := by decide

theorem witness_tstart_busy :
    let s := (atTile 0 0x21 1).setAgenda [.host (.tstart [0x21] (Vector.replicate 16 0))]
    s.agenda = .host (.tstart [0x21] (Vector.replicate 16 0)) :: [] ∧ s.trd.tstatus = .tbusy := by decide

theorem witness_completed_block : atDone.bd.Inv ∧ atDone.bd.phase = .done := by decide

/-- A finished decode: one pixel pair, the rest of the raster zero. -/
theorem witness_completed_decode :
    nextIs (step (atTile 0 0x21 1)) (fun t => t.trd.tphase == .tdone) = true := by decide

theorem witness_no_response :
    atLit.bd.phase ≠ .done ∧ atLit.bd.phase ≠ .err ∧ (atTile 0 0x21 1).trd.tphase ≠ .tdone := by decide

theorem witness_take_bd :
    let s := atDone.setAgenda [.host .takeBd]
    s.agenda = .host .takeBd :: [] ∧ s.bd.response = some (.ok [0x41, 0x41, 0x41, 0x41]) := by decide

theorem witness_take_bd_busy :
    let s := atLit.setAgenda [.host .takeBd]
    s.agenda = .host .takeBd :: [] ∧ (s.bd.status = .busy ∨ s.bd.status = .idle) := by decide

/-- A raster of all zero reads as a list of zeros. -/
theorem memReadRange_zeros (a count : Nat) :
    memReadRange .raster [] a count = some (List.replicate count 0) := by
  induction count generalizing a with
  | zero => rfl
  | succ count ih => simp [memReadRange, memRead, Space.unlisted, ih, List.replicate_succ]

theorem witness_take_trd :
    let s := (State.reset.setTrd { Trd.reset with tphase := .tdone }).setAgenda [.host .takeTrd]
    s.agenda = .host .takeTrd :: [] ∧ s.trd.response = some (List.replicate 16384 0) :=
  ⟨rfl, memReadRange_zeros 0 16384⟩

theorem witness_take_trd_busy :
    let s := (atTile 0 0x21 1).setAgenda [.host .takeTrd]
    s.agenda = .host .takeTrd :: [] ∧ s.trd.tstatus ≠ .tdone := by decide

theorem witness_at_rest : atDone.agenda = [] ∧ atDone.bd.status ≠ .busy ∧ atDone.trd.tstatus ≠ .tbusy := by decide

theorem witness_encode : (Instr.copy 18 4096).wf = true ∧ (Instr.copy 3 1).wf = true := by decide

theorem witness_reencode : decode .copy [0xFF, 0xFF, 0x01] = .ok (.copy 18 4096, [0x01]) := by decide

theorem witness_rejects : decode .hdr [0x10, 0x00, 0x00] = .error .missingByte ∧
    decode .hdr [0x11, 0x00, 0x00, 0x00] = .error .tagMismatch := by decide

/-- A step runs the decoded unit: the second byte pair of P2, and the last unit of a stream that ends at LEN. -/
theorem witness_step_runs :
    atCopy.bd.selects = some .copy ∧ [(0x00 : Byte), 0x00].length = UnitKind.copy.size ∧
      atCopy.bd.cursor + UnitKind.copy.size ≤ atCopy.bd.len.toNat ∧
      (∀ j < UnitKind.copy.size, memRead .input atCopy.bd.input (atCopy.bd.cursor + j) = [(0x00 : Byte), 0x00][j]?) ∧
      decode .copy [0x00, 0x00] = .ok (.copy 3 1, []) := by decide

theorem witness_step_runs_moves :
    (atCopy.setAgenda [.bd]).agenda = .bd :: [] ∧ (atCopy.setAgenda [.awaitBd]).agenda = .awaitBd :: [] ∧
      atCopy.agenda = [] := by decide

theorem witness_step_runs_tile :
    (atTile 0 0x21 1).trd.decoding ∧
      memRead .tile (atTile 0 0x21 1).trd.tile (atTile 0 0x21 1).trd.k.toNat = some 0x21 ∧
      (atTile 0 0x21 1).agenda = [] ∧ (atTile 0 0x21 1).bd.status ≠ .busy ∧
      (atTile 2047 0x21 2048).trd.decoding := by decide

theorem witness_color_call :
    (State.reset.setAgenda [.host (.convert 0xFFFF 15)]).agenda = .host (.convert 0xFFFF 15) :: [] := by decide

theorem witness_out_of_position :
    ((Instr.lit 0).kind ≠ .pix2 ∧ (Instr.lit 0).kind ≠ .color) ∧ atCopy.bd.selects ≠ some (Instr.lit 0).kind ∧
      ¬ atCopy.trd.decoding := by decide

/-- Registers that meet no rule's conditions: nothing owed, all flag bits used, no copy left, no tile byte left. -/
theorem witness_no_rule :
    (let b := { loaded p2 .flag with n := 4, dst := 4 }; b.phase = .flag ∧ b.n ≤ b.dst) ∧
      (let b := { loaded p2 .unit with n := 4, bit := 8 }; b.phase = .unit ∧ 8 ≤ b.bit) ∧
      (let b := { loaded p2 .copy with n := 4 }; b.phase = .copy ∧ b.crem = 0) ∧
      (atTile 1 0x21 1).trd.tphase = .tbusy ∧ (atTile 1 0x21 1).trd.tlen ≤ (atTile 1 0x21 1).trd.k.toNat := by decide

/-- The header's clauses meet at OFFSET + 3 = LEN and OFFSET = LEN. -/
theorem witness_header :
    atHdr.bd.phase = .hdr ∧ atHdr.bd.offset.toNat + 3 < atHdr.bd.len.toNat ∧
      (loaded [0x10, 0, 0, 0] .hdr).offset.toNat + 3 < (loaded [0x10, 0, 0, 0] .hdr).len.toNat := by decide

theorem witness_header_order_no_tag :
    (loaded [] .hdr).phase = .hdr ∧ Loaded .input (loaded [] .hdr).input (loaded [] .hdr).len.toNat ∧
      (loaded [] .hdr).len.toNat ≤ (loaded [] .hdr).offset.toNat := by decide

theorem witness_header_order_bad_tag :
    Loaded .input (loaded [0x11] .hdr).input (loaded [0x11] .hdr).len.toNat ∧
      (loaded [0x11] .hdr).offset.toNat < (loaded [0x11] .hdr).len.toNat ∧
      memRead .input (loaded [0x11] .hdr).input 0 = some 0x11 := by decide

theorem witness_header_order_short :
    let b := loaded [0x10, 0x04, 0x00] .hdr
    Loaded .input b.input b.len.toNat ∧ b.offset.toNat < b.len.toNat ∧
      memRead .input b.input b.offset.toNat = some 0x10 ∧ b.len.toNat ≤ b.offset.toNat + 3 := by decide

theorem witness_header_order_good :
    let b := loaded [0x10, 0x04, 0x00, 0x00] .hdr
    Loaded .input b.input b.len.toNat ∧ memRead .input b.input b.offset.toNat = some 0x10 ∧
      b.offset.toNat + 3 < b.len.toNat := by decide

theorem witness_flag :
    atFlag.bd.phase = .flag ∧ atFlag.bd.dst < atFlag.bd.n ∧ atFlag.bd.src < atFlag.bd.len ∧
      memRead .input atFlag.bd.input atFlag.bd.src.toNat = some 0x40 := by decide

theorem witness_flag_not_owed :
    let b := { loaded p2 .flag with n := 4, dst := 4, src := 8 }
    b.phase = .flag ∧ b.n ≤ b.dst := by decide

theorem witness_flag_missing :
    let b := { loaded p2 .flag with n := 9, dst := 8, src := 8 }
    b.phase = .flag ∧ b.dst < b.n ∧ b.len ≤ b.src := by decide

theorem witness_lit :
    atLit.bd.phase = .unit ∧ atLit.bd.dst < atLit.bd.n ∧ atLit.bd.bit ≤ 7 ∧
      atLit.bd.flags.getLsbD (7 - atLit.bd.bit.toNat) = false ∧ atLit.bd.src < atLit.bd.len ∧
      memRead .input atLit.bd.input atLit.bd.src.toNat = some 0x41 := by decide

theorem witness_lit_missing :
    let b := { loaded p2 .unit with n := 20, dst := 3, src := 8, bit := 7 }
    b.phase = .unit ∧ b.dst < b.n ∧ b.bit ≤ 7 ∧ b.flags.getLsbD (7 - b.bit.toNat) = false ∧ b.len ≤ b.src := by decide

theorem witness_copy :
    atCopy.bd.phase = .unit ∧ atCopy.bd.dst < atCopy.bd.n ∧ atCopy.bd.bit ≤ 7 ∧
      atCopy.bd.flags.getLsbD (7 - atCopy.bd.bit.toNat) = true ∧
      atCopy.bd.src.toNat + 1 < atCopy.bd.len.toNat ∧ (1 : BitVec 13).toNat ≤ atCopy.bd.dst.toNat ∧
      memRead .input atCopy.bd.input atCopy.bd.src.toNat = some 0 ∧
      memRead .input atCopy.bd.input (atCopy.bd.src.toNat + 1) = some 0 := by decide

theorem witness_copy_corrupt : atCopy.bd.dst.toNat < (2 : BitVec 13).toNat := by decide

theorem witness_copy_corrupt_first :
    let b := { loaded [0x00, 0x00] .unit with n := 4, flags := 0x80 }
    b.phase = .unit ∧ b.dst < b.n ∧ b.bit ≤ 7 ∧ b.flags.getLsbD (7 - b.bit.toNat) = true ∧
      b.src.toNat + 1 < b.len.toNat ∧ b.dst = 0 ∧ (Instr.copy 3 1).wf = true := by decide

theorem witness_copy_byte :
    atCopyByte.bd.phase = .copy ∧ 1 ≤ atCopyByte.bd.crem ∧ atCopyByte.bd.dst < atCopyByte.bd.n ∧
      atCopyByte.bd.cdisp.toNat ≤ atCopyByte.bd.dst.toNat ∧
      memRead .out atCopyByte.bd.out (atCopyByte.bd.dst.toNat - atCopyByte.bd.cdisp.toNat) = some 0x41 := by decide

theorem witness_overlap :
    atCopyByte.bd.Inv ∧ atCopyByte.bd.phase = .copy ∧ 3 ≤ atCopyByte.bd.crem.toNat ∧
      atCopyByte.bd.dst.toNat + 3 ≤ atCopyByte.bd.n.toNat := by decide

theorem witness_cut_short :
    let b := { atCopyByte.bd with n := 2, crem := 18 }
    b.Inv ∧ b.phase = .copy ∧ b.n.toNat - b.dst.toNat < b.crem.toNat := by decide

theorem witness_missing_bytes :
    let b := { loaded [0xFF] .unit with n := 5, dst := 1, flags := 0x40, bit := 1 }
    b.phase ≠ .hdr ∧ b.selects = some .copy ∧ Loaded .input b.input b.len.toNat ∧
      b.len.toNat < b.cursor + UnitKind.copy.size := by decide

theorem witness_failure_cause :
    let s := withBd (loaded [0xAA] .hdr)
    nextIs (bdStep s) (fun t => t.bd.phase == .err) = true ∧ s.bd.phase ≠ .err := by decide

theorem witness_rest :
    nextIs (step (atDone.setAgenda [.bd])) (fun _ => true) = true ∧ (atDone.setAgenda [.bd]).bd.status ≠ .busy ∧
      (∀ rest, (atDone.setAgenda [.bd]).agenda ≠ .host .reset :: rest) ∧
      (∀ bytes offset rest, (atDone.setAgenda [.bd]).agenda ≠ .host (.start bytes offset) :: rest) := by
  refine ⟨by decide, by decide, ?_, ?_⟩ <;> intros <;> simp [State.setAgenda]

theorem witness_rest_trd :
    (atDone.setAgenda [.bd]).trd.tstatus ≠ .tbusy ∧
      (∀ bytes palette rest, (atDone.setAgenda [.bd]).agenda ≠ .host (.tstart bytes palette) :: rest) ∧
      ∀ g p rest, (atDone.setAgenda [.bd]).agenda ≠ .host (.tstartSprite g p) :: rest := by
  refine ⟨by decide, ?_, ?_⟩ <;> intros <;> simp [State.setAgenda]

theorem witness_engine_steps :
    nextIs (bdStep atLit) (fun _ => true) = true ∧ nextIs (trdStep (atTile 0 0x21 1)) (fun _ => true) = true := by
  decide

theorem witness_forward :
    nextIs (bdStep atCopy) (fun t => t.bd.phase != .err) = true ∧ atCopy.bd.Streaming ∧
      nextIs (bdStep atFlag) (fun t => t.bd.phase != .err) = true ∧ atFlag.bd.Streaming := by decide

theorem witness_frame :
    ((Instr.flag 0x40).kind ≠ .pix2 ∧ (Instr.flag 0x40).kind ≠ .color) ∧
      nextIs (exec (.flag 0x40) atFlag) (fun t => t.bd.phase != .err) = true ∧
      nextIs (exec (.lit 0x41) atLit) (fun t => t.bd.phase != .err) = true ∧
      nextIs (exec (.copy 3 1) atCopy) (fun t => t.bd.phase != .err) = true ∧
      nextIs (exec (.hdr 4) atHdr) (fun t => t.bd.phase != .err) = true ∧
      nextIs (exec (.copy 3 2) atCopy) (fun t => t.bd.phase == .err) = true := by decide

/-- The same BD beside another TRD, host side and agenda. -/
theorem witness_bd_alone :
    let u := (atLit.setTrd (atTile 0 0x21 1).trd).setAgenda [.trd]
    atLit.bd = u.bd ∧ atLit.draws = u.draws ∧ atLit ≠ u := by decide

theorem witness_commute :
    let s := atLit.setTrd (atTile 0 0x21 1).trd
    nextIs (bdStep s) (fun _ => true) = true ∧ nextIs (trdStep s) (fun _ => true) = true := by decide

theorem witness_pix2 :
    let t := (atTile 2047 0x21 2048).trd
    t.tphase = .tbusy ∧ t.k.toNat < 2048 ∧ t.k.toNat < t.tlen ∧ MemWf .raster t.raster ∧
      memRead .tile t.tile t.k.toNat = some 0x21 ∧ (1 : BitVec 4).toNat = (0x21 : Byte).toNat % 16 ∧
      (2 : BitVec 4).toNat = (0x21 : Byte).toNat / 16 := by decide

theorem witness_pix2_frame : nextIs (exec (.pix2 2 1) (atTile 0 0x21 1)) (fun _ => true) = true := by decide

theorem witness_pixels : (63 : Nat) < 64 ∧ ([0x21] : List Byte)[0]? = some 0x21 ∧ ([] : List Byte)[0]? = none := by
  decide

theorem witness_palette : 32 ≤ (List.replicate 32 (0x7C : Byte)).length := by decide

/-- A host that holds these responses and launches a sprite from the ones it names. -/
def atSprite (taken : List BdResponse) (g p : Nat) : State :=
  (State.reset.setHost { taken := taken, frames := [] }).setAgenda [.host (.tstartSprite g p)]

theorem witness_short_palette :
    let s := atSprite [.ok [0x21], .ok [0xFF]] 0 1
    s.agenda = .host (.tstartSprite 0 1) :: [] ∧ s.host.taken[0]? = some (.ok [0x21]) ∧
      s.host.taken[1]? = some (.ok [0xFF]) ∧ ([0xFF] : List Byte).length < 32 := by decide

theorem witness_failed_sprite :
    let s := atSprite [.ok [0x21], .err .corruptData] 1 0
    s.agenda = .host (.tstartSprite 1 0) :: [] ∧ s.host.taken[1]? = some (.err .corruptData) ∧
      s.host.taken[0]? = some (.ok [0x21]) := by decide

/-- The palette block was taken before the graphics block. -/
theorem witness_sprite_launch :
    let s := atSprite [.ok (List.replicate 32 0x7C), .ok [0x21]] 1 0
    s.agenda = .host (.tstartSprite 1 0) :: [] ∧ s.host.taken[1]? = some (.ok [0x21]) ∧
      s.host.taken[0]? = some (.ok (List.replicate 32 0x7C)) ∧
      32 ≤ (List.replicate 32 (0x7C : Byte)).length ∧ s.trd.tstatus ≠ .tbusy := by decide

/-- R117, R148: with the palette launched first the graphics block is still the tile stream. -/
theorem test_sprite_palette_first :
    nextIs (step (atSprite [.ok (List.replicate 32 0x7C), .ok [0x21]] 1 0))
      (fun t => t.trd.tile == [(0, 0x21)] && t.trd.tlen == 1 && palAt t.trd.pal 15 == 0x7C7C) = true := by decide

theorem witness_sprite_busy :
    let s := (atSprite [.ok [0x21], .ok (List.replicate 32 0x7C)] 0 1).setTrd (atTile 0 0x21 1).trd
    s.agenda = .host (.tstartSprite 0 1) :: [] ∧ s.host.taken[0]? = some (.ok [0x21]) ∧
      s.host.taken[1]? = some (.ok (List.replicate 32 0x7C)) ∧
      32 ≤ (List.replicate 32 (0x7C : Byte)).length ∧ s.trd.tstatus = .tbusy := by decide

theorem witness_invariant : atCopyByte.Inv ∧ nextIs (step atCopyByte) (fun _ => true) = true :=
  ⟨⟨by decide, by decide⟩, by decide⟩

theorem witness_engines_busy :
    let s := atCopyByte.setTrd (atTile 0 0x21 1).trd
    s.Inv ∧ s.bd.status = .busy ∧ s.trd.tstatus = .tbusy ∧ atDone.Inv ∧ atDone.bd.status ≠ .busy ∧
      atDone.trd.tstatus ≠ .tbusy :=
  ⟨⟨by decide, by decide⟩, by decide, by decide, ⟨by decide, by decide⟩, by decide, by decide⟩

theorem witness_raster_legal :
    RasterLegal [(0, 0xF8), (3, 0xFF)] ∧ memRead .raster [(0, 0xF8), (3, 0xFF)] 3 = some 0xFF := by decide

theorem witness_bounded : atFlag.Inv ∧ atFlag.bd.phase = .flag ∧ atFlag.bd.dst = 0 :=
  ⟨⟨by decide, by decide⟩, by decide⟩

theorem witness_trd_run :
    let s := State.reset.setAgenda [.host (.tstart [0x21] (Vector.replicate 16 0))]
    s.agenda = [.host (.tstart [0x21] (Vector.replicate 16 0))] ∧ s.bd.status ≠ .busy ∧
      s.trd.tstatus ≠ .tbusy := by decide

/-- One buffer that is both a graphics block and a palette block: 32 bytes by run-length expansion. -/
def spriteBytes : List Byte := [0x10, 0x20, 0x00, 0x00, 0x70, 0x21, 0xF0, 0x00, 0xA0, 0x00]

theorem witness_sprite_decompress :
    decompress spriteBytes (0 : BitVec 32).toNat = .ok (List.replicate 32 0x21) := by decide

theorem witness_sprite_palette : (packPalette (List.replicate 32 0x21)).isSome = true := by decide

theorem witness_sprite_state :
    let s := State.reset.setAgenda (spriteMoves spriteBytes 0 0 0 1)
    let u := State.reset.setAgenda (spriteMoves spriteBytes 0 0 1 0)
    s.agenda = spriteMoves spriteBytes 0 0 s.host.taken.length (s.host.taken.length + 1) ∧
      u.agenda = spriteMoves spriteBytes 0 0 (u.host.taken.length + 1) u.host.taken.length ∧
      s.bd.status ≠ .busy ∧ s.trd.tstatus ≠ .tbusy ∧ u.bd.status ≠ .busy ∧ u.trd.tstatus ≠ .tbusy ∧
      spriteBytes.length < 2 ^ 32 := by decide

end Sys2Proof.Tests
end

section
/-! PROOFS. TRD's response: a range of a memory in which every byte has a value can be read, and every byte of RASTER has
one. -/

namespace Sys2Proof.Proofs.TrdResponse

open Sys2Proof.Machine

/-- A range in which every byte has a value reads as a list. -/
theorem exists_memReadRange_eq_some {sp : Space} {m : List Host.Cell} {a count : Nat}
    (h : ∀ j < count, ∃ v, memRead sp m (a + j) = some v) :
    ∃ vs, memReadRange sp m a count = some vs := by
  induction count generalizing a with
  | zero => exact ⟨[], rfl⟩
  | succ count ih =>
    obtain ⟨v, hv⟩ : ∃ v, memRead sp m a = some v := h 0 (by omega)
    obtain ⟨vs, hvs⟩ : ∃ vs, memReadRange sp m (a + 1) count = some vs := by
      refine ih fun j hj => ?_
      rw [show a + 1 + j = a + (j + 1) by omega]
      exact h (j + 1) (by omega)
    exact ⟨v :: vs, by simp [memReadRange, hv, hvs]⟩

/-- In TDONE the response is what the whole of RASTER reads as (R33). -/
theorem trdResponse_of_tdone {t : Trd} (h : t.tphase = .tdone) :
    t.response = memReadRange .raster t.raster 0 16384 := by
  rw [Trd.response, h]
  rfl

/-- Settles O55: RASTER has no byte without a value (R43), so the range that is the response can always be read. -/
theorem completedDecodeAnswersItsWholeRaster : Obligations.CompletedDecodeAnswersItsWholeRaster := by
  intro t hdone
  obtain ⟨buf, hbuf⟩ := exists_memReadRange_eq_some (a := 0) (count := 16384)
    fun j _ => memRead_raster_some t.raster (0 + j)
  obtain ⟨hlen, hread⟩ := memReadRange_eq_some.1 hbuf
  refine ⟨hdone, buf, (trdResponse_of_tdone hdone).trans hbuf, hlen, fun j hj => ?_⟩
  simpa using hread j hj

end Sys2Proof.Proofs.TrdResponse
end

section
/-! PROOFS. The header's and the back-reference's decoding: what a header decodes to by its tag, and the copy word's
fields as arithmetic on natural numbers. -/

namespace Sys2Proof.Proofs.HeaderAndCopyWord

/-- A header with any other tag is no header, however many bytes follow (R62, R72). -/
theorem decode_hdr_of_tag_ne {t : Byte} (rest : List Byte) (h : t ≠ Config.tag) :
    decode .hdr (t :: rest) = .error .tagMismatch := by
  simp [decode, decodeHdr, h]

/-- After the right tag a header is its length (R62, R66). -/
theorem decode_hdr_tag (l0 l1 l2 : Byte) (more : List Byte) :
    decode .hdr (Config.tag :: l0 :: l1 :: l2 :: more) = .ok (.hdr (le24 l0 l1 l2), more) := by
  simp [decode, decodeHdr]

/-- Settles O13: `Config.tag` is the byte 0x10, and `LE24` is the little-endian sum. -/
theorem headerIsATagAndALittleEndianLength : Obligations.HeaderIsATagAndALittleEndianLength := by
  intro t l0 l1 l2 more
  refine ⟨fun hne => decode_hdr_of_tag_ne _ hne, ?_⟩
  rintro rfl
  exact ⟨le24 l0 l1 l2, decode_hdr_tag l0 l1 l2 more, le24_toNat l0 l1 l2⟩

/-- The length is the high nibble plus 3: 5 bits hold the sum (R67). -/
theorem copyLength_toNat (b1 : Byte) : (copyLength b1).toNat = b1.toNat / 16 + 3 := by
  have hnibble : (b1.extractLsb' 4 4).toNat = b1.toNat / 16 := by
    rw [BitVec.extractLsb'_toNat, Nat.shiftRight_eq_div_pow]
    omega
  rw [copyLength, BitVec.toNat_add, BitVec.toNat_setWidth, hnibble, show (3 : BitVec 5).toNat = 3 from rfl]
  omega

/-- The displacement is the low nibble above the second byte, plus 1: 13 bits hold the sum (R68). -/
theorem copyDisplacement_toNat (b1 b2 : Byte) :
    (copyDisplacement b1 b2).toNat = b1.toNat % 16 * 256 + b2.toNat + 1 := by
  have hfield : (b1.extractLsb' 0 4 ++ b2).toNat = b1.toNat % 16 * 256 + b2.toNat := by
    rw [append_toNat, BitVec.extractLsb'_toNat, Nat.shiftRight_zero]
    omega
  rw [copyDisplacement, BitVec.toNat_add, BitVec.toNat_setWidth, hfield,
    show (1 : BitVec 13).toNat = 1 from rfl]
  omega

/-- Settles O14: the two sums of the fields' bits fix the operands, and a nibble and a byte bound them. -/
theorem copyWordGivesLengthAndDisplacement : Obligations.CopyWordGivesLengthAndDisplacement := by
  intro b1 b2 more
  have hlen := copyLength_toNat b1
  have hdisp := copyDisplacement_toNat b1 b2
  refine ⟨copyLength b1, copyDisplacement b1 b2, rfl, hlen, hdisp, ?_, ?_, ?_, ?_⟩ <;> omega

end Sys2Proof.Proofs.HeaderAndCopyWord
end

section
/-! PROOFS. The stream units (41_stream_units.md): what BD's step makes of the bytes at `src`, what `FLAG`, `LIT` and the
`COPY` decode answer where they are selected, and the `COPY` byte step, alone and repeated until the block is full. -/

namespace Sys2Proof.Proofs.StreamUnits

open Sys2Proof.Machine Sys2Proof.Proofs.TrdResponse

variable {s : State}

/-! ### Fetching -/

/-- A flag byte stands at `src` (R87). -/
theorem cursor_of_flag {b : Bd} (h : b.phase = .flag) : b.cursor = b.src.toNat := by
  rw [Bd.cursor, h]

/-- A literal and a back-reference stand at `src` (R89, R90). -/
theorem cursor_of_unit {b : Bd} (h : b.phase = .unit) : b.cursor = b.src.toNat := by
  rw [Bd.cursor, h]

/-- BD's step is exec of the unit its fetch finds. -/
theorem bdStep_eq_exec {kind : UnitKind} {i : Instr} (hsel : s.bd.selects = some kind)
    (hfetch : fetchBd s.bd kind = .unit i) : bdStep s = exec i s := by
  simp [bdStep_of_selects hsel, runUnit, hfetch]

/-- BD's step is exec of a one-byte unit's decoding, where its byte is there. -/
theorem bdStep_eq_exec_of_byte {kind : UnitKind} {i : Instr} {v : Byte} (hsel : s.bd.selects = some kind)
    (hsize : kind.size = 1) (hin : s.bd.cursor < s.bd.len.toNat)
    (hread : memRead .input s.bd.input s.bd.cursor = some v) (hd : decode kind [v] = .ok (i, [])) :
    bdStep s = exec i s := by
  refine bdStep_eq_exec hsel (fetchBd_of_reads (bytes := [v]) hsize.symm (by omega) (fun j hj => ?_) hd)
  obtain rfl : j = 0 := by omega
  exact hread

/-- No position has a unit of no bytes. -/
theorem decode_nil (kind : UnitKind) : decode kind [] = .error .missingByte := by
  cases kind <;> rfl

/-- With no byte below `LEN` at the cursor, BD's step raises TruncatedInput and nothing else is asked (R122). -/
theorem bdStep_of_no_byte {kind : UnitKind} (hsel : s.bd.selects = some kind)
    (hend : s.bd.len.toNat ≤ s.bd.cursor) : bdStep s = .next (raise .truncatedInput s) := by
  have hbytes : inBytes .input s.bd.input s.bd.len.toNat s.bd.cursor kind.size = .ok [] :=
    inBytes_of_reads (by simp; omega) (by simp)
  simp [bdStep_of_selects hsel, runUnit, fetchBd, hbytes, decode_nil, failureOf]

/-! ### FLAG, LIT and COPY where they are selected -/

/-- `FLAG` with its byte there (R87). -/
theorem exec_flag (f : Byte) (hsel : s.bd.selects = some .flag) (hin : s.bd.holds 1) :
    exec (.flag f) s =
      .next (s.setBd { s.bd with flags := f, src := s.bd.src + 1, bit := 0, phase := .unit }) := by
  rw [exec, execFlag, if_pos hsel, if_pos hin]

/-- `LIT` with its byte there (R89). -/
theorem exec_lit (d : Byte) (hsel : s.bd.selects = some .lit) (hin : s.bd.holds 1) :
    exec (.lit d) s =
      .next (s.setBd
        { s.bd with
          bit := s.bd.bit + 1
          out := memWrite .out s.bd.out s.bd.dst.toNat d
          src := s.bd.src + 1
          dst := s.bd.dst + 1
          phase := nextPhase s.bd.n (s.bd.dst + 1) (s.bd.bit + 1) }) := by
  rw [exec, execLit, if_pos hsel, if_pos hin]

/-- A displacement past the first byte produced (R91). -/
theorem exec_copy_of_lt (clen : BitVec 5) {cdisp : BitVec 13} (hsel : s.bd.selects = some .copy)
    (hin : s.bd.holds 2) (hfar : s.bd.dst.toNat < cdisp.toNat) :
    exec (.copy clen cdisp) s = .next (raise .corruptData s) := by
  rw [exec, execCopy, if_pos hsel, if_pos hin, if_pos hfar]

/-- A displacement into the bytes produced (R90). -/
theorem exec_copy_of_le (clen : BitVec 5) {cdisp : BitVec 13} (hsel : s.bd.selects = some .copy)
    (hin : s.bd.holds 2) (hnear : cdisp.toNat ≤ s.bd.dst.toNat) :
    exec (.copy clen cdisp) s =
      .next (s.setBd
        { s.bd with
          bit := s.bd.bit + 1
          src := s.bd.src + 2
          cdisp := cdisp
          crem := clen
          phase := .copy }) := by
  rw [exec, execCopy, if_pos hsel, if_pos hin, if_neg (Nat.not_lt.2 hnear)]

/-- Settles O21: the flag byte stands at `src`, and its selection itself asks for an output byte owed. -/
theorem flagByteIsLoadedAndOpensItsUnits : Obligations.FlagByteIsLoadedAndOpensItsUnits := by
  refine ⟨fun s f hphase howed hsrc => ?_, fun s hphase howed hend => ?_, fun s hfull hsel => ?_⟩
  · have hsel := selects_flag.2 ⟨hphase, howed⟩
    have hcursor := cursor_of_flag hphase
    have hin : s.bd.cursor < s.bd.len.toNat := hcursor ▸ hsrc
    exact ⟨exec_flag f hsel hin,
      fun hread => bdStep_eq_exec_of_byte hsel rfl hin (hcursor ▸ hread) rfl⟩
  · have hcursor := cursor_of_flag hphase
    exact ⟨_, bdStep_of_no_byte (selects_flag.2 ⟨hphase, howed⟩) (hcursor ▸ hend), rfl, rfl, rfl⟩
  · exact BitVec.not_lt.2 hfull (selects_flag.1 hsel).2

/-- Settles O22: the literal's byte stands at `src`, and `nextPhase` is the sequencing written out. -/
theorem literalIsCopiedToTheOutput : Obligations.LiteralIsCopiedToTheOutput := by
  refine ⟨fun s d hphase howed hbit hflag hsrc => ?_, fun s hphase howed hbit hflag hend => ?_⟩
  · have hsel := selects_lit.2 ⟨hphase, ⟨howed, hbit⟩, hflag⟩
    have hcursor := cursor_of_unit hphase
    have hin : s.bd.cursor < s.bd.len.toNat := hcursor ▸ hsrc
    refine ⟨fun hread => bdStep_eq_exec_of_byte hsel rfl hin (hcursor ▸ hread) rfl, ?_⟩
    exact ⟨_, exec_lit d hsel hin, memRead_memWrite_out, fun a ha => memRead_memWrite_of_ne ha,
      rfl, rfl, rfl, rfl, rfl, rfl⟩
  · have hsel := selects_lit.2 ⟨hphase, ⟨howed, hbit⟩, hflag⟩
    have hcursor := cursor_of_unit hphase
    exact ⟨_, bdStep_of_no_byte hsel (hcursor ▸ hend), rfl, rfl, rfl⟩

/-- A back-reference that an encoding can stand for goes back at least one byte (R68). -/
theorem one_le_cdisp_of_wf {clen : BitVec 5} {cdisp : BitVec 13}
    (h : (Instr.copy clen cdisp).wf = true) : 1 ≤ cdisp.toNat := by
  simp only [Instr.wf, Bool.and_eq_true, decide_eq_true_eq] at h
  obtain ⟨-, hmin, -⟩ := h
  exact hmin

/-- Settles O24: with both bytes there, the comparison of `cdisp` with `dst` alone decides between the failure and the
load; at `dst` 0 a displacement of 1 is already too far. -/
theorem displacementBeyondTheOutputIsCorruptData : Obligations.DisplacementBeyondTheOutputIsCorruptData := by
  intro s clen cdisp hphase howed hbit hflag hsrc
  have hsel := selects_copy.2 ⟨hphase, ⟨howed, hbit⟩, hflag⟩
  have hcursor := cursor_of_unit hphase
  have hin : s.bd.holds 2 := by rw [Bd.holds, hcursor]; omega
  refine ⟨fun hfar => ?_, fun hnear => ?_, fun hzero hwf => ?_⟩
  · exact ⟨_, exec_copy_of_lt clen hsel hin hfar, rfl, rfl, raise_response _ s, rfl⟩
  · exact ⟨_, exec_copy_of_le clen hsel hin hnear, rfl, rfl⟩
  · rw [hzero]
    exact one_le_cdisp_of_wf hwf

/-! ### The COPY byte step -/

/-- The byte step where its conditions hold and its source has a value (R92). -/
theorem copyByte_of_copying {v : Byte} (h : s.bd.copying)
    (hread : memRead .out s.bd.out (s.bd.dst.toNat - s.bd.cdisp.toNat) = some v) :
    copyByte s =
      .next (s.setBd
        { s.bd with
          out := memWrite .out s.bd.out s.bd.dst.toNat v
          dst := s.bd.dst + 1
          crem := s.bd.crem - 1
          phase :=
            if s.bd.dst + 1 = s.bd.n ∨ s.bd.crem - 1 = 0 then
              nextPhase s.bd.n (s.bd.dst + 1) s.bd.bit
            else .copy }) := by
  rw [copyByte, if_pos h, hread]

/-- Settles O25: the byte step's one effect, with its one write read back. -/
theorem copyByteStepCopiesOneByte : Obligations.CopyByteStepCopiesOneByte := by
  intro s v hphase hcrem howed hdisp hread
  have hstep := copyByte_of_copying ⟨hphase, hcrem, howed, hdisp⟩ hread
  exact ⟨_, (bdStep_of_copy hphase).trans hstep, memRead_memWrite_out,
    fun a ha => memRead_memWrite_of_ne ha, rfl, rfl, rfl, rfl, rfl, rfl⟩

/-! ### A copy to the end of the block -/

/-- What the byte steps of a back-reference rest on: room in OUT, a source among the bytes produced (R37 I5), and every
byte produced having a value (R37 I3). -/
structure CopyHasRoom (b : Bd) : Prop where
  copying : b.phase = .copy
  owed : b.dst < b.n
  one_le_cdisp : 1 ≤ b.cdisp.toNat
  cdisp_le_dst : b.cdisp.toNat ≤ b.dst.toNat
  produced : Loaded .out b.out b.dst.toNat

/-- A listed address has a value. -/
theorem isSome_memRead_of_mem_fst {sp : Space} {m : List Host.Cell} {a : Nat} (h : a ∈ m.map Prod.fst) :
    (memRead sp m a).isSome := by
  induction m with
  | nil => simp at h
  | cons c rest ih =>
    rw [memRead_cons]
    split
    · rfl
    · next hne =>
      rw [List.map_cons, List.mem_cons] at h
      exact ih (h.resolve_left fun e => hne e.symm)

/-- What has been written can be read. -/
theorem loaded_of_writtenUpTo {sp : Space} {m : List Host.Cell} {n : Nat} (h : WrittenUpTo m n) : Loaded sp m n :=
  fun a ha => isSome_memRead_of_mem_fst (by rw [h]; exact List.mem_range.2 ha)

/-- Bytes with values up to `n` and a value at `n` are bytes with values up to `n + 1`. -/
theorem loaded_succ {sp : Space} {m m' : List Host.Cell} {n : Nat} {v : Byte} (h : Loaded sp m n)
    (hself : memRead sp m' n = some v) (hother : ∀ a, a ≠ n → memRead sp m' a = memRead sp m a) :
    Loaded sp m' (n + 1) := by
  intro a ha
  by_cases hnew : a = n
  · rw [hnew, hself]
    rfl
  · rw [hother a hnew]
    exact h a (by omega)

/-- In phase COPY the invariant of R37 gives the byte steps what they rest on. -/
theorem copyHasRoom_of_inv {b : Bd} (hinv : b.Inv) (hphase : b.phase = .copy) : CopyHasRoom b := by
  obtain ⟨-, hstream, -, hcopy, -⟩ := hinv
  obtain ⟨howed, -, -, hwritten, -⟩ := hstream (.inr (.inr hphase))
  obtain ⟨-, -, -, hmin, -, hdisp⟩ := hcopy hphase
  exact ⟨hphase, howed, hmin, hdisp, loaded_of_writtenUpTo hwritten⟩

/-- One byte step of a copy with room: it either fills OUT, which completes the block, or leaves a copy with room. -/
theorem bdStep_of_copyHasRoom (h : CopyHasRoom s.bd) (hcrem : 2 ≤ s.bd.crem.toNat) :
    ∃ t, bdStep s = .next t ∧ t.bd.n = s.bd.n ∧ t.bd.errcode = s.bd.errcode ∧
      t.bd.dst.toNat = s.bd.dst.toNat + 1 ∧ t.bd.crem.toNat = s.bd.crem.toNat - 1 ∧
      (t.bd.dst = t.bd.n → t.bd.phase = .done) ∧ (t.bd.dst ≠ t.bd.n → CopyHasRoom t.bd) := by
  obtain ⟨hphase, howed, hmin, hdisp, hproduced⟩ := h
  obtain ⟨v, hv⟩ := Option.isSome_iff_exists.1 (hproduced (s.bd.dst.toNat - s.bd.cdisp.toNat) (by omega))
  obtain ⟨t, hstep, hself, hother, hbd, -⟩ :=
    copyByteStepCopiesOneByte s v hphase (by bv_omega) howed hdisp hv
  have hn : t.bd.n = s.bd.n := by rw [hbd]
  have hdst : t.bd.dst = s.bd.dst + 1 := by rw [hbd]
  have hcrem' : t.bd.crem = s.bd.crem - 1 := by rw [hbd]
  have hcdisp : t.bd.cdisp = s.bd.cdisp := by rw [hbd]
  have hdstNat : t.bd.dst.toNat = s.bd.dst.toNat + 1 := by rw [hdst]; bv_omega
  have hphase' : t.bd.phase =
      if s.bd.dst + 1 = s.bd.n ∨ s.bd.crem - 1 = 0 then
        if s.bd.n ≤ s.bd.dst + 1 then .done else if s.bd.bit = 8 then .flag else .unit
      else .copy := by rw [hbd]
  refine ⟨t, hstep, hn, by rw [hbd], hdstNat, by rw [hcrem']; bv_omega, fun hfull => ?_, fun hroom => ?_⟩
  · have hlast : s.bd.dst + 1 = s.bd.n := by rw [← hdst, hfull, hn]
    rw [hphase', if_pos (.inl hlast), if_pos (BitVec.le_of_eq hlast.symm)]
  · rw [hn, hdst] at hroom
    have hmore : s.bd.crem - 1 ≠ 0 := by bv_omega
    exact
      { copying := by rw [hphase', if_neg (not_or.2 ⟨hroom, hmore⟩)]
        owed := by rw [hn, hdst]; bv_omega
        one_le_cdisp := by rw [hcdisp]; exact hmin
        cdisp_le_dst := by rw [hdstNat, hcdisp]; omega
        produced := by rw [hdstNat]; exact loaded_succ hproduced hself hother }

theorem bdRun_succ {t : State} (k : Nat) (h : bdStep s = .next t) : bdRun (k + 1) s = bdRun k t := by
  rw [bdRun, h]

/-- A copy longer than the room left takes one byte step per byte of room, by induction on the room, and completes the
block (R94). -/
theorem bdRun_of_copyHasRoom (room : Nat) (h : CopyHasRoom s.bd)
    (hroom : s.bd.dst.toNat + (room + 1) = s.bd.n.toNat) (hlong : room + 1 < s.bd.crem.toNat) :
    ∃ t, bdRun (room + 1) s = .next t ∧ t.bd.phase = .done ∧ t.bd.errcode = s.bd.errcode ∧
      t.bd.dst = s.bd.n ∧ t.bd.crem.toNat = s.bd.crem.toNat - (room + 1) := by
  induction room generalizing s with
  | zero =>
    obtain ⟨t, hstep, hn, herr, hdst, hcrem, hdone, -⟩ := bdStep_of_copyHasRoom h (by omega)
    have hfull : t.bd.dst = s.bd.n := BitVec.eq_of_toNat_eq (by omega)
    exact ⟨t, bdRun_succ 0 hstep, hdone (hfull.trans hn.symm), herr, hfull, hcrem⟩
  | succ room ih =>
    obtain ⟨u, hstep, hn, herr, hdst, hcrem, -, hmore⟩ := bdStep_of_copyHasRoom h (by omega)
    have hnotFull : u.bd.dst ≠ u.bd.n := fun e => by rw [e, hn] at hdst; omega
    obtain ⟨t, hrun, hdone, herr', hdst', hcrem'⟩ := ih (hmore hnotFull) (by rw [hn]; omega) (by omega)
    exact ⟨t, (bdRun_succ _ hstep).trans hrun, hdone, herr'.trans herr, hdst'.trans hn, by omega⟩

/-- Settles O27: the invariant gives the copy its room, which is at least one byte. -/
theorem copyCutShortCompletesTheBlock : Obligations.CopyCutShortCompletesTheBlock := by
  intro s hinv hphase hlong
  have h := copyHasRoom_of_inv hinv hphase
  have howed : s.bd.dst.toNat < s.bd.n.toNat := h.owed
  have herr : s.bd.errcode = .noError := by
    obtain ⟨-, hstream, -⟩ := hinv
    obtain ⟨-, -, -, -, herr⟩ := hstream (.inr (.inr hphase))
    exact herr
  obtain ⟨room, hroom⟩ : ∃ room, s.bd.n.toNat - s.bd.dst.toNat = room + 1 :=
    Nat.exists_eq_add_one.2 (by omega)
  rw [hroom] at hlong ⊢
  obtain ⟨t, hrun, hdone, herr', hdst, hcrem⟩ := bdRun_of_copyHasRoom room h (by omega) hlong
  exact ⟨t, hrun, hdone, herr'.trans herr, hdst, by bv_omega, hcrem⟩

/-! ### The response of a completed block -/

/-- In DONE the response is what the first N bytes of OUT read as (R27). -/
theorem bdResponse_of_done {b : Bd} (h : b.phase = .done) :
    b.response = (memReadRange .out b.out 0 b.n.toNat).map .ok := by
  rw [Bd.response, h]

/-- Settles O6: the invariant says that in DONE exactly the N bytes of OUT are written, so all of them can be read. -/
theorem completedBlockAnswersItsWholeOutput : Obligations.CompletedBlockAnswersItsWholeOutput := by
  intro b hinv hphase
  obtain ⟨-, -, -, -, hdone, -⟩ := hinv
  obtain ⟨hdst, hwritten, herr⟩ := hdone hphase
  obtain ⟨buf, hbuf⟩ := exists_memReadRange_eq_some (sp := .out) (m := b.out) (a := 0) (count := b.n.toNat)
    fun j hj => Option.isSome_iff_exists.1 (loaded_of_writtenUpTo hwritten (0 + j) (by omega))
  obtain ⟨hlen, hread⟩ := memReadRange_eq_some.1 hbuf
  have hresponse : b.response = some (.ok buf) := by rw [bdResponse_of_done hphase, hbuf]; rfl
  refine ⟨by rw [Bd.status, hphase]; rfl, herr, hdst, buf, hresponse, hlen, fun j hj => ?_⟩
  simpa using hread j hj

end Sys2Proof.Proofs.StreamUnits
end

section
/-! PROOFS. The tile byte: the nibbles of a byte, the channels of a palette value and the traversal as arithmetic on
natural numbers, and both pixels of a pair read back. -/

namespace Sys2Proof.Proofs.TileRaster

open Sys2Proof.Machine

/-- The indices that are a byte's remainder and quotient by 16 are its nibbles (R76, R103). -/
theorem decodePix2_eq {v : Byte} {hi lo : BitVec 4} (hlo : lo.toNat = v.toNat % 16)
    (hhi : hi.toNat = v.toNat / 16) : decodePix2 v = .pix2 hi lo := by
  have hhigh : v.extractLsb' 4 4 = hi := BitVec.eq_of_toNat_eq <| by
    rw [BitVec.extractLsb'_toNat, Nat.shiftRight_eq_div_pow]
    omega
  have hlow : v.extractLsb' 0 4 = lo := BitVec.eq_of_toNat_eq <| by
    rw [BitVec.extractLsb'_toNat, Nat.shiftRight_zero, hlo]
  rw [decodePix2, hhigh, hlow]

/-- `PIX2` where TRD is decoding (R102). -/
theorem exec_pix2 {s : State} (hi lo : BitVec 4) (h : s.trd.decoding) :
    exec (.pix2 hi lo) s =
      .next (s.setTrd
        { s.trd with
          raster := putPair s.trd.raster s.trd.pal s.trd.k.toNat hi lo
          k := s.trd.k + 1
          tphase :=
            if s.trd.k.toNat + 1 = Config.tileStreamBytes ∨ s.trd.k.toNat + 1 = s.trd.tlen then .tdone
            else .tbusy }) := by
  rw [exec, execPix2, if_pos h]

/-! ### The traversal -/

/-- The row of both pixels from `k`: eight tiles of 32 bytes to a tile row (R101). -/
theorem pixelRow_eq (k : Nat) : pixelRow k = k / 256 * 8 + k % 32 / 4 := by
  rw [pixelRow, tileNumber, Nat.div_div_eq_div_mul]

/-- The raster address with the canvas's sizes (R106). -/
theorem rasterAddr_eq (x y : Nat) : rasterAddr x y = (y * 64 + x) * 4 := rfl

/-- The right pixel's bytes follow the left pixel's (R101, R106). -/
theorem rasterAddr_rightColumn (k y : Nat) :
    rasterAddr (rightColumn k) y = rasterAddr (leftColumn k) y + 4 := by
  rw [rightColumn, rasterAddr_eq, rasterAddr_eq]
  omega

/-! ### The colour conversion -/

/-- A channel of a palette value times 8: 8 bits hold the product (R104). -/
theorem scaleChannel_extractLsb' (c : BitVec 16) (i : Nat) :
    scaleChannel (c.extractLsb' i 5) = BitVec.ofNat 8 (c.toNat / 2 ^ i % 32 * 8) := by
  apply BitVec.eq_of_toNat_eq
  rw [scaleChannel, BitVec.toNat_shiftLeft, BitVec.toNat_setWidth, BitVec.extractLsb'_toNat,
    Nat.shiftRight_eq_div_pow, Nat.shiftLeft_eq, BitVec.toNat_ofNat]
  omega

theorem rgba_r (c : BitVec 16) (p : BitVec 4) : (rgba c p).r = BitVec.ofNat 8 (c.toNat % 32 * 8) := by
  simpa [rgba, rgbaOfFields] using scaleChannel_extractLsb' c 0

theorem rgba_g (c : BitVec 16) (p : BitVec 4) : (rgba c p).g = BitVec.ofNat 8 (c.toNat / 32 % 32 * 8) :=
  scaleChannel_extractLsb' c 5

theorem rgba_b (c : BitVec 16) (p : BitVec 4) : (rgba c p).b = BitVec.ofNat 8 (c.toNat / 1024 % 32 * 8) :=
  scaleChannel_extractLsb' c 10

theorem rgba_a (c : BitVec 16) (p : BitVec 4) : (rgba c p).a = if p = 0 then 0 else 255 := rfl

/-! ### The pair -/

/-- The four bytes of either pixel of a pair read back: the right pixel is put over no byte of the left one (R102). -/
theorem memRead_putPair {m : List Host.Cell} (hw : MemWf .raster m) (pal : Palette) {k x : Nat}
    {hi lo p : BitVec 4} (hp : p = lo ∧ x = leftColumn k ∨ p = hi ∧ x = rightColumn k) :
    memRead .raster (putPair m pal k hi lo) (rasterAddr x (pixelRow k)) = some (rgba (palAt pal p) p).r ∧
    memRead .raster (putPair m pal k hi lo) (rasterAddr x (pixelRow k) + 1) =
      some (rgba (palAt pal p) p).g ∧
    memRead .raster (putPair m pal k hi lo) (rasterAddr x (pixelRow k) + 2) =
      some (rgba (palAt pal p) p).b ∧
    memRead .raster (putPair m pal k hi lo) (rasterAddr x (pixelRow k) + 3) =
      some (rgba (palAt pal p) p).a := by
  rw [putPair]
  rcases hp with ⟨rfl, rfl⟩ | ⟨rfl, rfl⟩
  · have hnext := rasterAddr_rightColumn k (pixelRow k)
    obtain ⟨hr, hg, hb, ha⟩ := memRead_putPixel hw (leftColumn k) (pixelRow k) (rgba (palAt pal p) p)
    exact ⟨(memRead_putPixel_of_outside _ _ _ (by omega)).trans hr,
      (memRead_putPixel_of_outside _ _ _ (by omega)).trans hg,
      (memRead_putPixel_of_outside _ _ _ (by omega)).trans hb,
      (memRead_putPixel_of_outside _ _ _ (by omega)).trans ha⟩
  · exact memRead_putPixel (putPixel_wf hw _ _ _) _ _ _

/-- Settles O37: the conditions are those of a `PIX2` step, whose pair is read back pixel by pixel; 12 bits hold `k + 1`. -/
theorem tileBytePutsTwoPixels : Obligations.TileBytePutsTwoPixels := by
  intro s hi lo hbusy hk hlen hw
  have hdec : s.trd.decoding := ⟨hbusy, hk, hlen⟩
  refine ⟨fun v hv hlo hhi => ?_, _, exec_pix2 hi lo hdec, ?_, rfl, fun p x hp => ?_⟩
  · rw [trdStep_of_decoding hdec hv, decodePix2_eq hlo hhi]
  · exact BitVec.toNat_add_of_lt (by simp; omega)
  · have hpair := memRead_putPair hw s.trd.pal hp
    rw [rasterAddr_eq, pixelRow_eq, rgba_r, rgba_g, rgba_b, rgba_a] at hpair
    exact hpair

end Sys2Proof.Proofs.TileRaster
end

section
/-! PROOFS. The packing of a palette: the words a byte buffer holds, and the palette made of its first sixteen. -/

namespace Sys2Proof.Proofs.PalettePacking

open Sys2Proof.Machine

/-- Word `i` of a byte buffer, low byte first (R113). -/
def wordAt (buf : List Byte) (i : Nat) : BitVec 16 := le16 (buf.getD (2 * i) 0) (buf.getD (2 * i + 1) 0)

@[simp] theorem wordAt_zero (lo hi : Byte) (rest : List Byte) : wordAt (lo :: hi :: rest) 0 = le16 lo hi := rfl

@[simp] theorem wordAt_succ (lo hi : Byte) (rest : List Byte) (i : Nat) :
    wordAt (lo :: hi :: rest) (i + 1) = wordAt rest i := rfl

theorem wordAt_toNat (buf : List Byte) (i : Nat) :
    (wordAt buf i).toNat = (buf.getD (2 * i) 0).toNat + 256 * (buf.getD (2 * i + 1) 0).toNat :=
  le16_toNat _ _

/-- The words below `count` reach no byte from `2 * count` on. -/
theorem wordAt_take (buf : List Byte) {i count : Nat} (h : i < count) :
    wordAt (buf.take (2 * count)) i = wordAt buf i := by
  have hlo : 2 * i < 2 * count := by omega
  have hhi : 2 * i + 1 < 2 * count := by omega
  simp [wordAt, List.getElem?_take_of_lt, hlo, hhi]

/-- A buffer of `2 * count` bytes or more packs into its first `count` words. -/
theorem packWords_eq_some {count : Nat} {buf : List Byte} (h : 2 * count ≤ buf.length) :
    packWords count buf = some ((List.range count).map (wordAt buf)) := by
  induction count generalizing buf with
  | zero => rfl
  | succ count ih =>
    match buf, h with
    | lo :: hi :: rest, h =>
      have hrest : 2 * count ≤ rest.length := by simpa [Nat.mul_succ] using h
      simp [packWords, ih hrest, List.range_succ_eq_map]

/-- The palette of a buffer's first sixteen words (R113). -/
def paletteOf (buf : List Byte) : Palette := Vector.ofFn fun i => wordAt buf i

theorem palAt_paletteOf (buf : List Byte) (i : BitVec 4) : palAt (paletteOf buf) i = wordAt buf i.toNat := by
  simp [palAt, paletteOf]

/-- From 32 bytes on the packing succeeds (R113). -/
theorem packPalette_eq_some {buf : List Byte} (h : 32 ≤ buf.length) : packPalette buf = some (paletteOf buf) := by
  rw [packPalette, packWords_eq_some (show 2 * Config.palSize ≤ buf.length from h)]
  rfl

/-- The packing reaches no byte past the 32nd (R113). -/
theorem paletteOf_take (buf : List Byte) : paletteOf (buf.take 32) = paletteOf buf :=
  congrArg Vector.ofFn (funext fun i => wordAt_take buf i.isLt)

/-- Settles O42: the palette is that of the first sixteen words, which the first 32 bytes hold. -/
theorem paletteIsPackedLittleEndian : Obligations.PaletteIsPackedLittleEndian := by
  intro buf hlen
  have htake : 32 ≤ (buf.take 32).length := by simpa using hlen
  refine ⟨paletteOf buf, packPalette_eq_some hlen, ?_, fun i => ?_⟩
  · rw [packPalette_eq_some htake, paletteOf_take]
  · rw [palAt_paletteOf, wordAt_toNat]

end Sys2Proof.Proofs.PalettePacking
end

section
/-! PROOFS. The encoding: each unit's fields put into bytes and read back, and which bytes are no unit. -/

namespace Sys2Proof.Proofs.UnitEncoding

open Sys2Proof.Proofs.HeaderAndCopyWord Sys2Proof.Proofs.TileRaster

/-! ### Fields as arithmetic -/

/-- A field of bits is a quotient's remainder. -/
theorem extractLsb'_toNat_eq {w : Nat} (x : BitVec w) (start len : Nat) :
    (x.extractLsb' start len).toNat = x.toNat / 2 ^ start % 2 ^ len := by
  rw [BitVec.extractLsb'_toNat, Nat.shiftRight_eq_div_pow]

/-- The three bytes of a number, lowest first, are `LE24` of it (R45). -/
theorem le24_bytes (n : BitVec 24) : le24 (n.extractLsb' 0 8) (n.extractLsb' 8 8) (n.extractLsb' 16 8) = n := by
  apply BitVec.eq_of_toNat_eq
  rw [le24_toNat, extractLsb'_toNat_eq, extractLsb'_toNat_eq, extractLsb'_toNat_eq]
  omega

theorem bytes_le24 (l0 l1 l2 : Byte) :
    (le24 l0 l1 l2).extractLsb' 0 8 = l0 ∧ (le24 l0 l1 l2).extractLsb' 8 8 = l1 ∧
      (le24 l0 l1 l2).extractLsb' 16 8 = l2 := by
  refine ⟨?_, ?_, ?_⟩ <;> apply BitVec.eq_of_toNat_eq <;> rw [extractLsb'_toNat_eq, le24_toNat] <;> omega

/-- The two bytes of a palette value, lowest first, are `LE16` of it (R49). -/
theorem le16_bytes (c : BitVec 16) : le16 (c.extractLsb' 0 8) (c.extractLsb' 8 8) = c := by
  apply BitVec.eq_of_toNat_eq
  rw [le16_toNat, extractLsb'_toNat_eq, extractLsb'_toNat_eq]
  omega

theorem bytes_le16 (lo hi : Byte) :
    (le16 lo hi).extractLsb' 0 8 = lo ∧ (le16 lo hi).extractLsb' 8 8 = hi := by
  refine ⟨?_, ?_⟩ <;> apply BitVec.eq_of_toNat_eq <;> rw [extractLsb'_toNat_eq, le16_toNat] <;> omega

/-- A palette value as a sum of its fields (R77). -/
theorem colorValue_toNat (x : BitVec 1) (blue green red : BitVec 5) :
    (colorValue x blue green red).toNat =
      red.toNat + 32 * green.toNat + 1024 * blue.toNat + 32768 * x.toNat := by
  rw [colorValue, append_toNat, append_toNat, append_toNat]
  omega

/-- The fields of a value put together from fields (R77). -/
theorem decodeColor_colorValue (x : BitVec 1) (blue green red : BitVec 5) :
    decodeColor (colorValue x blue green red) = .color x blue green red := by
  have hx : (colorValue x blue green red).extractLsb' 15 1 = x := BitVec.eq_of_toNat_eq <| by
    rw [extractLsb'_toNat_eq, colorValue_toNat]; omega
  have hblue : (colorValue x blue green red).extractLsb' 10 5 = blue := BitVec.eq_of_toNat_eq <| by
    rw [extractLsb'_toNat_eq, colorValue_toNat]; omega
  have hgreen : (colorValue x blue green red).extractLsb' 5 5 = green := BitVec.eq_of_toNat_eq <| by
    rw [extractLsb'_toNat_eq, colorValue_toNat]; omega
  have hred : (colorValue x blue green red).extractLsb' 0 5 = red := BitVec.eq_of_toNat_eq <| by
    rw [extractLsb'_toNat_eq, colorValue_toNat]; omega
  rw [decodeColor, hx, hblue, hgreen, hred]

/-- A palette value is its fields put together (R77). -/
theorem colorValue_fields (c : BitVec 16) :
    colorValue (c.extractLsb' 15 1) (c.extractLsb' 10 5) (c.extractLsb' 5 5) (c.extractLsb' 0 5) = c := by
  apply BitVec.eq_of_toNat_eq
  simp only [colorValue_toNat, extractLsb'_toNat_eq]
  omega

/-! ### The back-reference's two bytes -/

/-- Which lengths and displacements an encoding can stand for (R67, R68). -/
theorem wf_copy {clen : BitVec 5} {cdisp : BitVec 13} :
    (Instr.copy clen cdisp).wf = true ↔
      (3 ≤ clen.toNat ∧ clen.toNat ≤ 18) ∧ 1 ≤ cdisp.toNat ∧ cdisp.toNat ≤ 4096 := by
  simp only [Instr.wf, Bool.and_eq_true, decide_eq_true_eq]
  rfl

/-- The first byte of an encoded back-reference (R69). -/
def copyByte1 (clen : BitVec 5) (cdisp : BitVec 13) : Byte :=
  (clen - 3).extractLsb' 0 4 ++ (cdisp - 1).extractLsb' 8 4

/-- The second byte of an encoded back-reference (R69). -/
def copyByte2 (cdisp : BitVec 13) : Byte := (cdisp - 1).extractLsb' 0 8

theorem encode_copy (clen : BitVec 5) (cdisp : BitVec 13) :
    encode (.copy clen cdisp) = [copyByte1 clen cdisp, copyByte2 cdisp] := rfl

theorem copyByte1_toNat {clen : BitVec 5} {cdisp : BitVec 13} (h : (Instr.copy clen cdisp).wf = true) :
    (copyByte1 clen cdisp).toNat = (clen.toNat - 3) * 16 + (cdisp.toNat - 1) / 256 := by
  obtain ⟨⟨hmin, hmax⟩, hnear, hfar⟩ := wf_copy.1 h
  have hlen : (clen - 3).toNat = clen.toNat - 3 := by bv_omega
  have hdisp : (cdisp - 1).toNat = cdisp.toNat - 1 := by bv_omega
  rw [copyByte1, append_toNat, extractLsb'_toNat_eq, extractLsb'_toNat_eq, hlen, hdisp]
  omega

theorem copyByte2_toNat {clen : BitVec 5} {cdisp : BitVec 13} (h : (Instr.copy clen cdisp).wf = true) :
    (copyByte2 cdisp).toNat = (cdisp.toNat - 1) % 256 := by
  obtain ⟨-, hnear, hfar⟩ := wf_copy.1 h
  have hdisp : (cdisp - 1).toNat = cdisp.toNat - 1 := by bv_omega
  rw [copyByte2, extractLsb'_toNat_eq, hdisp]
  omega

theorem copyLength_copyByte1 {clen : BitVec 5} {cdisp : BitVec 13} (h : (Instr.copy clen cdisp).wf = true) :
    copyLength (copyByte1 clen cdisp) = clen := by
  have hbounds := wf_copy.1 h
  apply BitVec.eq_of_toNat_eq
  rw [copyLength_toNat, copyByte1_toNat h]
  omega

theorem copyDisplacement_copyBytes {clen : BitVec 5} {cdisp : BitVec 13}
    (h : (Instr.copy clen cdisp).wf = true) :
    copyDisplacement (copyByte1 clen cdisp) (copyByte2 cdisp) = cdisp := by
  have hbounds := wf_copy.1 h
  apply BitVec.eq_of_toNat_eq
  rw [copyDisplacement_toNat, copyByte1_toNat h, copyByte2_toNat h]
  omega

/-- Every pair of bytes is a well-formed back-reference (R67, R68). -/
theorem wf_copy_of_bytes (b1 b2 : Byte) : (Instr.copy (copyLength b1) (copyDisplacement b1 b2)).wf = true := by
  rw [wf_copy, copyLength_toNat, copyDisplacement_toNat]
  omega

/-- A back-reference read from two bytes is encoded by them (R69). -/
theorem copyBytes_of_bytes (b1 b2 : Byte) :
    copyByte1 (copyLength b1) (copyDisplacement b1 b2) = b1 ∧ copyByte2 (copyDisplacement b1 b2) = b2 := by
  have h := wf_copy_of_bytes b1 b2
  refine ⟨BitVec.eq_of_toNat_eq ?_, BitVec.eq_of_toNat_eq ?_⟩
  · rw [copyByte1_toNat h, copyLength_toNat, copyDisplacement_toNat]
    omega
  · rw [copyByte2_toNat h, copyDisplacement_toNat]
    omega

/-! ### Decode and encode -/

/-- A tile byte is its nibbles put together (R76). -/
theorem append_nibbles (v : Byte) : v.extractLsb' 4 4 ++ v.extractLsb' 0 4 = v := by
  apply BitVec.eq_of_toNat_eq
  rw [append_toNat, extractLsb'_toNat_eq, extractLsb'_toNat_eq]
  omega

/-- A tile byte's unit is encoded by the byte (R76). -/
theorem encode_decodePix2 (v : Byte) : encode (decodePix2 v) = [v] :=
  congrArg (fun b : Byte => [b]) (append_nibbles v)

theorem decodePix2_append (hi lo : BitVec 4) : decodePix2 (hi ++ lo) = .pix2 hi lo :=
  decodePix2_eq (by rw [append_toNat]; omega) (by rw [append_toNat]; omega)

/-- A palette entry's unit is encoded by the entry's bytes (R77). -/
theorem encode_decodeColor_le16 (lo hi : Byte) : encode (decodeColor (le16 lo hi)) = [lo, hi] := by
  obtain ⟨hlo, hhi⟩ := bytes_le16 lo hi
  rw [decodeColor, encode, colorValue_fields, hlo, hhi]

/-- Settles O9: unit by unit, the fields read from the encoded bytes are the fields encoded. -/
theorem decodingAnEncodedUnitGivesItBack : Obligations.DecodingAnEncodedUnitGivesItBack := by
  intro i rest hwf
  cases i with
  | hdr n => exact (decode_hdr_tag _ _ _ rest).trans (by rw [le24_bytes])
  | flag f => rfl
  | lit d => rfl
  | copy clen cdisp =>
    rw [encode_copy]
    simp [Instr.kind, decode, decodeCopy, copyLength_copyByte1 hwf, copyDisplacement_copyBytes hwf]
  | pix2 hi lo => simp [encode, Instr.kind, decode, decodeByte, decodePix2_append]
  | color x blue green red =>
    simp [encode, Instr.kind, decode, decodeColorBytes, le16_bytes, decodeColor_colorValue]

/-- Settles O10: the bytes a position takes are the encoding of the unit it reads from them. -/
theorem decodedUnitsReencodeToTheirBytes : Obligations.DecodedUnitsReencodeToTheirBytes := by
  intro kind bytes rest i h
  refine ⟨Machine.decode_kind h, ?_⟩
  cases kind with
  | hdr =>
    obtain _ | ⟨t, bytes⟩ := bytes
    · cases h
    by_cases htag : t = Config.tag
    · subst htag
      obtain _ | ⟨l0, _ | ⟨l1, _ | ⟨l2, more⟩⟩⟩ := bytes
      iterate 3 simp [decode, decodeHdr] at h
      rw [decode_hdr_tag] at h
      cases h
      obtain ⟨h0, h1, h2⟩ := bytes_le24 l0 l1 l2
      exact ⟨rfl, by simp [encode, h0, h1, h2]⟩
    · rw [decode_hdr_of_tag_ne _ htag] at h
      cases h
  | flag =>
    obtain _ | ⟨f, more⟩ := bytes <;> cases h
    exact ⟨rfl, rfl⟩
  | lit =>
    obtain _ | ⟨d, more⟩ := bytes <;> cases h
    exact ⟨rfl, rfl⟩
  | copy =>
    obtain _ | ⟨b1, _ | ⟨b2, more⟩⟩ := bytes <;> cases h
    obtain ⟨h1, h2⟩ := copyBytes_of_bytes b1 b2
    exact ⟨wf_copy_of_bytes b1 b2, by rw [encode_copy, h1, h2]; rfl⟩
  | pix2 =>
    obtain _ | ⟨v, more⟩ := bytes <;> cases h
    exact ⟨rfl, by rw [encode_decodePix2]; rfl⟩
  | color =>
    obtain _ | ⟨lo, _ | ⟨hi, more⟩⟩ := bytes <;> cases h
    exact ⟨rfl, by rw [encode_decodeColor_le16]; rfl⟩

/-! ### What is rejected -/

/-- A header's tag decides before its length bytes are missed (R62, R83). -/
theorem decode_hdr_cons (t : Byte) (rest : List Byte) :
    (decode .hdr (t :: rest) = .error .missingByte ↔ t = 0x10 ∧ rest.length < 3) ∧
      (decode .hdr (t :: rest) = .error .tagMismatch ↔ t ≠ 0x10) := by
  by_cases htag : t = Config.tag
  · subst htag
    obtain _ | ⟨l0, _ | ⟨l1, _ | ⟨l2, more⟩⟩⟩ := rest <;> simp [decode, decodeHdr, Config.tag]
  · have hne : t ≠ 0x10 := htag
    rw [decode_hdr_of_tag_ne _ htag]
    exact ⟨⟨nofun, fun h => absurd h.1 hne⟩, ⟨fun _ => hne, fun _ => rfl⟩⟩

/-- Bytes at any other position are rejected only when one is missing (R73 to R78). -/
theorem decode_of_ne_hdr {kind : UnitKind} (hkind : kind ≠ .hdr) (bytes : List Byte) :
    (decode kind bytes = .error .missingByte ↔ bytes.length < kind.size) ∧
      decode kind bytes ≠ .error .tagMismatch := by
  refine ⟨⟨Machine.decode_missing, fun hshort => ?_⟩, fun h => hkind (Machine.decode_tag h).1⟩
  cases kind with
  | hdr => exact absurd rfl hkind
  | flag | lit | pix2 =>
    obtain _ | ⟨b, more⟩ := bytes
    · rfl
    · simp [UnitKind.size] at hshort
  | copy | color =>
    obtain _ | ⟨b, _ | ⟨b', more⟩⟩ := bytes
    · rfl
    · rfl
    · simp [UnitKind.size] at hshort

/-- Settles O11: only a header has a tag, which is tested first. -/
theorem onlyShortOrMistaggedBytesAreRejected : Obligations.OnlyShortOrMistaggedBytesAreRejected := by
  intro kind bytes
  by_cases hkind : kind = .hdr
  · subst hkind
    obtain _ | ⟨t, rest⟩ := bytes
    · simp [decode, decodeHdr, UnitKind.size]
    · obtain ⟨hmissing, hmismatch⟩ := decode_hdr_cons t rest
      have hsize : (t :: rest).length < UnitKind.hdr.size ↔ rest.length < 3 := Nat.add_lt_add_iff_right
      rw [hmissing, hmismatch, hsize]
      simp [and_comm]
  · obtain ⟨hmissing, hmismatch⟩ := decode_of_ne_hdr hkind bytes
    simp [hmissing, hmismatch, hkind]

/-- Settles O12: six words written out, one for each row. -/
theorem wordsWrittenFromTheSpecDecode : Obligations.WordsWrittenFromTheSpecDecode := by
  unfold Obligations.WordsWrittenFromTheSpecDecode
  decide

/-- Settles O15: the nibbles and the colour's fields as quotients and remainders of the bytes. -/
theorem tileBytesAndColoursSplitIntoTheirFields : Obligations.TileBytesAndColoursSplitIntoTheirFields := by
  refine ⟨fun v more => ⟨_, _, rfl, ?_, ?_⟩, fun b0 b1 more => ⟨_, _, _, _, rfl, ?_⟩⟩
  · rw [extractLsb'_toNat_eq]
    omega
  · rw [extractLsb'_toNat_eq]
    omega
  · rw [← colorValue_toNat, colorValue_fields, le16_toNat]

end Sys2Proof.Proofs.UnitEncoding
end

section
/-! PROOFS. The machine's step by the head of its agenda, and the host's moves: reset, the launches, taking a response, the
sprite launch and the colour call. -/

namespace Sys2Proof.Proofs.HostMoves

open Sys2Proof.Machine Sys2Proof.Proofs.TrdResponse Sys2Proof.Proofs.TileRaster Sys2Proof.Proofs.PalettePacking
  Sys2Proof.Proofs.UnitEncoding

variable {s : State} {rest : List Move}

/-! ### Whose move it is -/

@[simp] theorem setAgenda_self (s : State) : s.setAgenda s.agenda = s := rfl

/-- A host action at the head of the agenda. -/
theorem step_of_host {a : HostAction} (h : s.agenda = .host a :: rest) :
    step s = hostAct a (s.setAgenda rest) := by
  rw [step, turn, h]
  rfl

theorem step_of_bd (h : s.agenda = .bd :: rest) : step s = bdStep (s.setAgenda rest) := by
  rw [step, turn, h]
  rfl

theorem step_of_trd (h : s.agenda = .trd :: rest) : step s = trdStep (s.setAgenda rest) := by
  rw [step, turn, h]
  rfl

/-- The wait for BD stands while BD is busy. -/
theorem step_of_awaitBd (h : s.agenda = .awaitBd :: rest) :
    step s = if s.bd.status = .busy then bdStep s else .next (s.setAgenda rest) := by
  rw [step, turn, h]
  show (if s.bd.status = .busy then bdStep (s.setAgenda (.awaitBd :: rest)) else _) = _
  rw [← h, setAgenda_self]

/-- The wait for TRD stands while TRD is busy. -/
theorem step_of_awaitTrd (h : s.agenda = .awaitTrd :: rest) :
    step s = if s.trd.tstatus = .tbusy then trdStep s else .next (s.setAgenda rest) := by
  rw [step, turn, h]
  show (if s.trd.tstatus = .tbusy then trdStep (s.setAgenda (.awaitTrd :: rest)) else _) = _
  rw [← h, setAgenda_self]

/-- With no move left the engines run on. -/
theorem step_of_free (h : s.agenda = []) : step s = if s.bd.status = .busy then bdStep s else trdStep s := by
  rw [step, turn, h]
  rfl

/-- Settles O8: neither engine's step changes anything at rest. -/
theorem machineAtRestDoesNotChange : Obligations.MachineAtRestDoesNotChange := by
  intro s hagenda hbd htrd
  rw [step_of_free hagenda, if_neg hbd]
  exact trdStep_of_rest htrd

/-! ### Reset -/

/-- Settles O1: the two reset engines, evaluated. -/
theorem resetLeavesBothEnginesIdle : Obligations.ResetLeavesBothEnginesIdle := by
  unfold Obligations.ResetLeavesBothEnginesIdle
  decide

/-- Settles O2: the reset puts the reset engines in place, which hold no response. -/
theorem hostResetAbandonsEveryLaunch : Obligations.HostResetAbandonsEveryLaunch := by
  intro s rest hagenda
  exact ⟨_, step_of_host hagenda, rfl, rfl, rfl, rfl, rfl, rfl, rfl⟩

/-! ### Launches -/

theorem hostStart_of_rest {bytes : List Byte} (offset : BitVec 32) (hrest : s.bd.status ≠ .busy)
    (hlen : bytes.length < Config.lenBound) : hostStart bytes offset s = .next (launchBd bytes offset s) := by
  rw [hostStart, if_neg hrest, if_pos hlen]

theorem hostTstart_of_rest (bytes : List Byte) (palette : Palette) (hrest : s.trd.tstatus ≠ .tbusy) :
    hostTstart bytes palette s = .next (launchTrd bytes palette s) := by
  rw [hostTstart, if_neg hrest]

theorem hostTstart_of_busy (bytes : List Byte) (palette : Palette) (hbusy : s.trd.tstatus = .tbusy) :
    hostTstart bytes palette s = .refused .launchWhileBusy := by
  rw [hostTstart, if_pos hbusy]

/-- The sprite launch that the agenda and the host's responses name. -/
theorem step_of_tstartSprite {g p : Nat} {rg rp : BdResponse} (h : s.agenda = .host (.tstartSprite g p) :: rest)
    (hg : s.host.taken[g]? = some rg) (hp : s.host.taken[p]? = some rp) :
    step s = launchSprite rg rp (s.setAgenda rest) :=
  (step_of_host h).trans (hostTstartSprite_of_taken hg hp)

/-- Two good responses and a packed palette are a `TSTART` (R113, R115, R117). -/
theorem launchSprite_ok {gfx palBuf : List Byte} {palette : Palette} (h : packPalette palBuf = some palette) :
    launchSprite (.ok gfx) (.ok palBuf) s = hostTstart gfx palette s := by
  rw [launchSprite, h]

/-- A failure of either block launches nothing (R116). -/
theorem launchSprite_of_err {rg rp : BdResponse} (h : (∃ e, rg = .err e) ∨ ∃ e, rp = .err e) :
    launchSprite rg rp s = .next s := by
  obtain ⟨e, rfl⟩ | ⟨e, rfl⟩ := h
  · cases rp <;> rfl
  · cases rg <;> rfl

/-- What a launch of TRD leaves in its registers and its two spaces (R100). -/
theorem launchTrd_trd (bytes : List Byte) (palette : Palette) (s : State) :
    (launchTrd bytes palette s).trd.pal = palette ∧
      (∀ a, memRead .raster (launchTrd bytes palette s).trd.raster a = some 0) ∧
      (launchTrd bytes palette s).trd.k = 0 ∧ (launchTrd bytes palette s).trd.tlen = bytes.length ∧
      (∀ a, memRead .tile (launchTrd bytes palette s).trd.tile a = bytes[a]?) ∧
      (launchTrd bytes palette s).trd.tphase = (if bytes.length = 0 then .tdone else .tbusy) := by
  obtain ⟨-, -, htile⟩ := launchTrd_loaded bytes palette s
  exact ⟨rfl, fun _ => rfl, rfl, rfl, htile, rfl⟩

/-- Settles O3: the launch of BD at rest, with its bytes loaded. -/
theorem startHoldsTheArgumentsAndClearsErrcode : Obligations.StartHoldsTheArgumentsAndClearsErrcode := by
  intro s bytes offset rest hagenda hrest hlen
  obtain ⟨-, hlenNat, hread⟩ := launchBd_loaded bytes offset (s.setAgenda rest) hlen
  exact ⟨_, (step_of_host hagenda).trans (hostStart_of_rest offset hrest hlen), hlenNat, hread,
    rfl, rfl, rfl, rfl, rfl, rfl⟩

/-- Settles O4: the launch of TRD at rest, with its bytes loaded and no raster byte listed. -/
theorem tstartLoadsThePaletteAndClearsTheRaster : Obligations.TstartLoadsThePaletteAndClearsTheRaster := by
  intro s bytes palette rest hagenda hrest
  obtain ⟨hpal, hraster, hk, htlen, htile, hphase⟩ := launchTrd_trd bytes palette (s.setAgenda rest)
  exact ⟨_, (step_of_host hagenda).trans (hostTstart_of_rest bytes palette hrest), hpal, hraster, hk, htlen,
    htile, hphase, rfl, rfl, rfl, rfl⟩

/-- Settles O5: each launch asks first whether its engine is busy; the sprite launch does so once its palette is packed. -/
theorem launchOfABusyEngineIsRefused : Obligations.LaunchOfABusyEngineIsRefused := by
  refine ⟨fun s bytes offset rest hagenda hbusy => ?_, fun s bytes palette rest hagenda hbusy => ?_,
    fun s g p gfx palBuf rest hagenda hg hp hlen hbusy => ?_⟩
  · rw [step_of_host hagenda]
    exact if_pos hbusy
  · exact (step_of_host hagenda).trans (hostTstart_of_busy bytes palette hbusy)
  · rw [step_of_tstartSprite hagenda hg hp, launchSprite_ok (packPalette_eq_some hlen)]
    exact hostTstart_of_busy gfx _ hbusy

/-- Settles O45: two good responses launch TRD with the palette of the first sixteen words. -/
theorem spriteLaunchReadsTheBlocksTheHostNames : Obligations.SpriteLaunchReadsTheBlocksTheHostNames := by
  intro s g p gfx palBuf rest hagenda hg hp hlen hrest
  obtain ⟨hpal, hraster, hk, htlen, htile, hphase⟩ := launchTrd_trd gfx (paletteOf palBuf) (s.setAgenda rest)
  have hstep : step s = .next (launchTrd gfx (paletteOf palBuf) (s.setAgenda rest)) := by
    rw [step_of_tstartSprite hagenda hg hp, launchSprite_ok (packPalette_eq_some hlen)]
    exact hostTstart_of_rest gfx _ hrest
  refine ⟨_, hstep, fun i => ?_, htlen, htile, hk, hraster, hphase, rfl, rfl, rfl, rfl, rfl⟩
  rw [hpal, palAt_paletteOf, wordAt_toNat]

/-- Settles O44: a failed response, of either block, launches nothing. -/
theorem failedDecompressionSkipsTheRaster : Obligations.FailedDecompressionSkipsTheRaster := by
  intro s g p rg rp rest hagenda hg hp herr
  rw [step_of_tstartSprite hagenda hg hp, launchSprite_of_err herr]

/-- Fewer bytes than the words asked for pack into none (R114). -/
theorem packWords_eq_none {count : Nat} {buf : List Byte} (h : buf.length < 2 * count) :
    packWords count buf = none := by
  induction count generalizing buf with
  | zero => omega
  | succ count ih =>
    match buf, h with
    | [], _ => rfl
    | [_], _ => rfl
    | lo :: hi :: more, h =>
      have hmore : more.length < 2 * count := by simp at h; omega
      rw [packWords, ih hmore]
      rfl

/-- Settles O43: sixteen words want 32 bytes. -/
theorem shortPaletteIsRefused : Obligations.ShortPaletteIsRefused := by
  intro s g p gfx palBuf rest hagenda hg hp hshort
  have hpack : packPalette palBuf = none := by
    rw [packPalette, packWords_eq_none (show palBuf.length < 2 * Config.palSize from hshort)]
  rw [step_of_tstartSprite hagenda hg hp, launchSprite, hpack]

/-! ### Responses and the status views -/

theorem bdResponse_of_no_end {b : Bd} (hdone : b.phase ≠ .done) (herr : b.phase ≠ .err) : b.response = none := by
  unfold Bd.response
  split
  · next hphase => exact absurd hphase hdone
  · next hphase => exact absurd hphase herr
  all_goals rfl

theorem trdResponse_of_not_tdone {t : Trd} (h : t.tphase ≠ .tdone) : t.response = none := by
  unfold Trd.response
  split
  · next hphase => exact absurd hphase h
  all_goals rfl

/-- Settles O56: the views by cases of the phases. -/
theorem hostReadsStatusAndErrcode : Obligations.HostReadsStatusAndErrcode := by
  refine ⟨fun b => ⟨?_, status_eq_busy, ?_, ?_, bdResponse_of_no_end⟩,
    fun t => ⟨rfl, trdResponse_of_not_tdone⟩, rfl, rfl, rfl, rfl⟩
  all_goals
    rw [Bd.status]
    cases b.phase <;> decide

/-- Settles O7: a response is appended to what the host holds, and the one raster there can be has 16384 bytes. -/
theorem takingAResponseLeavesTheEngines : Obligations.TakingAResponseLeavesTheEngines := by
  intro s rest
  refine ⟨fun hagenda => ⟨fun r hr => ?_, fun hstatus => ?_⟩, fun hagenda => ⟨fun r hr => ?_, fun hstatus => ?_⟩⟩
  · rw [step_of_host hagenda, hostAct, hostTakeBd, State.setAgenda_bd, hr]
    rfl
  · have hnone : s.bd.response = none := by
      apply bdResponse_of_no_end <;> intro hphase <;> simp [Bd.status, hphase, Phase.status] at hstatus
    rw [step_of_host hagenda, hostAct, hostTakeBd, State.setAgenda_bd, hnone]
  · have hdone : s.trd.tphase = .tdone := by
      by_contra hphase
      rw [trdResponse_of_not_tdone hphase] at hr
      cases hr
    obtain ⟨hlen, -⟩ := memReadRange_eq_some.1 ((trdResponse_of_tdone hdone).symm.trans hr)
    refine ⟨hlen, ?_⟩
    rw [step_of_host hagenda, hostAct, hostTakeTrd, State.setAgenda_trd, hr]
    rfl
  · rw [step_of_host hagenda, hostAct, hostTakeTrd, State.setAgenda_trd, trdResponse_of_not_tdone hstatus]

/-! ### The colour conversion -/

theorem scaleChannel_toNat (c : BitVec 5) : (scaleChannel c).toNat = c.toNat * 8 := by
  rw [scaleChannel, BitVec.toNat_shiftLeft, BitVec.toNat_setWidth, Nat.shiftLeft_eq]
  omega

/-- Settles O39: the one effect of `COLOR`, channel by channel. -/
theorem colourConversionScalesChannels : Obligations.ColourConversionScalesChannels := by
  intro s x blue green red
  exact ⟨_, rfl, scaleChannel_toNat red, scaleChannel_toNat green, scaleChannel_toNat blue, rfl, rfl⟩

/-- The colour call runs the decoded value on the latched index (log 10). -/
theorem step_of_convert {c : BitVec 16} {p : BitVec 4} (h : s.agenda = .host (.convert c p) :: rest) :
    step s = exec (decodeColor c) ((s.setAgenda rest).setConv { s.conv with p := p }) :=
  step_of_host h

/-- A field below bit 15 is the same with bit 15 set (R78). -/
theorem extractLsb'_set_bit_fifteen (c : BitVec 16) {start : Nat} (h : start + 5 ≤ 15) :
    (c ||| 0x8000).extractLsb' start 5 = c.extractLsb' start 5 := by
  apply BitVec.eq_of_getLsbD_eq
  intro i hi
  have hbit : (0x8000 : BitVec 16).getLsbD (start + i) = false := by
    have hsmall : start + i < 15 := by omega
    generalize start + i = j at hsmall
    revert j
    decide
  rw [BitVec.getLsbD_extractLsb', BitVec.getLsbD_extractLsb', BitVec.getLsbD_or, hbit, Bool.or_false]

theorem rgba_set_bit_fifteen (c : BitVec 16) (p : BitVec 4) : rgba (c ||| 0x8000) p = rgba c p := by
  rw [rgba, rgba, extractLsb'_set_bit_fifteen c (by decide), extractLsb'_set_bit_fifteen c (by decide),
    extractLsb'_set_bit_fifteen c (by decide)]

/-- Settles O40: the call is the conversion of the value's fields, and bit 15 is in none of them. -/
theorem colourCallIgnoresBitFifteen : Obligations.ColourCallIgnoresBitFifteen := by
  intro s c p rest hagenda
  have hbyte : ∀ m : Nat, (BitVec.ofNat 8 (m % 32 * 8)).toNat = m % 32 * 8 := by
    intro m
    rw [BitVec.toNat_ofNat]
    omega
  refine ⟨_, step_of_convert hagenda, rfl, rfl, rfl, ?_, ?_, ?_, rfl, rgba_set_bit_fifteen c p⟩
  · rw [rgba_r, hbyte]
  · rw [rgba_g, hbyte]
  · rw [rgba_b, hbyte]

end Sys2Proof.Proofs.HostMoves
end

section
/-! PROOFS. What a step of BD does, said once: `BdEffect` has one case for each thing a step can do, with the bytes that
stand at the cursor. The statements about a step's unit, its failures and its registers are read off it. -/

namespace Sys2Proof.Proofs.BdSteps

open Sys2Proof.Machine Sys2Proof.Proofs.StreamUnits Sys2Proof.Proofs.UnitEncoding Sys2Proof.Proofs.HostMoves

variable {s t : State}

/-! ### The bytes at the cursor -/

/-- A unit stands at BD's cursor: its encoding is there, all of it below `LEN`. -/
structure Stands (b : Bd) (i : Instr) : Prop where
  wf : i.wf = true
  below : b.cursor + i.kind.size ≤ b.len.toNat
  reads : ∀ j < i.kind.size, memRead .input b.input (b.cursor + j) = (encode i)[j]?

theorem encode_length (i : Instr) : (encode i).length = i.kind.size := by
  cases i <;> rfl

theorem size_pos (kind : UnitKind) : 0 < kind.size := by
  cases kind <;> decide

/-- Only a busy BD has a unit due. -/
theorem busy_of_selects {b : Bd} {kind : UnitKind} (h : b.selects = some kind) : b.status = .busy := by
  unfold Bd.selects at h
  rw [status_eq_busy]
  split at h <;> simp_all

/-- A unit that is due is one of the four stream units (R70). -/
theorem kind_of_selects {b : Bd} {kind : UnitKind} (h : b.selects = some kind) :
    kind ≠ .pix2 ∧ kind ≠ .color := by
  unfold Bd.selects at h
  split at h
  · cases h
    decide
  · obtain ⟨-, h⟩ := Option.ite_none_right_eq_some.1 h
    cases h
    decide
  · obtain ⟨-, h⟩ := Option.ite_none_right_eq_some.1 h
    cases hflag : flagAt b.flags b.bit.toNat <;> rw [hflag] at h <;> cases h <;> decide
  all_goals cases h

/-- The fetch finds a unit only if it stands at the cursor. -/
theorem stands_of_fetchBd {b : Bd} {kind : UnitKind} {i : Instr} (h : fetchBd b kind = .unit i) :
    i.kind = kind ∧ Stands b i := by
  obtain ⟨bytes, rest, hbytes, hdecode⟩ := fetchBd_unit h
  obtain ⟨hkind, hwf, hencode⟩ := decodedUnitsReencodeToTheirBytes kind bytes rest i hdecode
  obtain ⟨hlen, hreads⟩ := inBytes_ok hbytes
  have hsize : bytes.length = i.kind.size + rest.length := by
    rw [hencode, List.length_append, encode_length]
  have hpos := size_pos kind
  refine ⟨hkind, hwf, by rw [hkind] at hsize ⊢; omega, fun j hj => ?_⟩
  rw [hreads j (by omega), hencode, List.getElem?_append_left (by rwa [encode_length])]

/-- A fetch whose bytes are no unit found a wrong tag, or too few bytes and no wrong tag (R127). -/
theorem cause_of_fetchBd_failure {b : Bd} {kind : UnitKind} {e : Failure} (h : fetchBd b kind = .failure e) :
    (e = .invalidHeader ∧ kind = .hdr ∧ b.cursor < b.len.toNat ∧
        ∃ v, memRead .input b.input b.cursor = some v ∧ v ≠ 0x10) ∨
      (e = .truncatedInput ∧ b.len.toNat < b.cursor + kind.size ∧
        (kind = .hdr → b.cursor < b.len.toNat → memRead .input b.input b.cursor = some 0x10)) := by
  obtain ⟨bytes, r, hbytes, hdecode, rfl⟩ := fetchBd_failure h
  obtain ⟨hlen, hreads⟩ := inBytes_ok hbytes
  obtain ⟨hmissing, hmismatch⟩ := onlyShortOrMistaggedBytesAreRejected kind bytes
  cases r with
  | tagMismatch =>
    obtain ⟨hkind, v, hhead, hv⟩ := hmismatch.1 hdecode
    obtain ⟨more, rfl⟩ := List.head?_eq_some_iff.1 hhead
    exact .inl ⟨rfl, hkind, by simp at hlen; omega, v, by simpa using hreads 0 (by simp), hv⟩
  | missingByte =>
    obtain ⟨hshort, htag⟩ := hmissing.1 hdecode
    refine .inr ⟨rfl, by omega, fun hkind hin => ?_⟩
    obtain ⟨v, more, rfl⟩ : ∃ v more, bytes = v :: more := by
      refine List.exists_cons_of_length_pos ?_
      rw [hlen, hkind]
      simp only [UnitKind.size]
      omega
    rw [← htag hkind v rfl]
    simpa using hreads 0 (by simp)

/-! ### The effect of a step -/

/-- BD after the header `n` (R82, R85, R86). -/
def afterHdr (b : Bd) (n : BitVec 24) : Bd :=
  { b with n := n, src := b.offset + 4, dst := 0, out := [], phase := if n = 0 then .done else .flag }

/-- BD after the flag byte `f` (R87). -/
def afterFlag (b : Bd) (f : Byte) : Bd := { b with flags := f, src := b.src + 1, bit := 0, phase := .unit }

/-- BD after the literal `d` (R89). -/
def afterLit (b : Bd) (d : Byte) : Bd :=
  { b with
    bit := b.bit + 1
    out := memWrite .out b.out b.dst.toNat d
    src := b.src + 1
    dst := b.dst + 1
    phase := nextPhase b.n (b.dst + 1) (b.bit + 1) }

/-- BD after the decode step of a back-reference (R90). -/
def afterCopy (b : Bd) (clen : BitVec 5) (cdisp : BitVec 13) : Bd :=
  { b with bit := b.bit + 1, src := b.src + 2, cdisp := cdisp, crem := clen, phase := .copy }

/-- BD after one copied byte `v` (R92). -/
def afterCopyByte (b : Bd) (v : Byte) : Bd :=
  { b with
    out := memWrite .out b.out b.dst.toNat v
    dst := b.dst + 1
    crem := b.crem - 1
    phase := if b.dst + 1 = b.n ∨ b.crem - 1 = 0 then nextPhase b.n (b.dst + 1) b.bit else .copy }

theorem afterHdr_phase_ne_err (b : Bd) (n : BitVec 24) : (afterHdr b n).phase ≠ .err := by
  rw [afterHdr]
  split <;> nofun

theorem afterCopyByte_phase_ne_err (b : Bd) (v : Byte) : (afterCopyByte b v).phase ≠ .err := by
  rw [afterCopyByte]
  split
  · exact nextPhase_ne_err
  · nofun

/-- Everything a step of BD can do. -/
inductive BdEffect (s : State) : State → Prop where
  /-- No rule is enabled (R154). -/
  | rest (hrest : s.bd.status ≠ .busy) : BdEffect s s
  | hdr (n : BitVec 24) (hsel : s.bd.selects = some .hdr) (hstands : Stands s.bd (.hdr n)) :
      BdEffect s (s.setBd (afterHdr s.bd n))
  | flag (f : Byte) (hsel : s.bd.selects = some .flag) (hstands : Stands s.bd (.flag f)) :
      BdEffect s (s.setBd (afterFlag s.bd f))
  | lit (d : Byte) (hsel : s.bd.selects = some .lit) (hstands : Stands s.bd (.lit d)) :
      BdEffect s (s.setBd (afterLit s.bd d))
  | copy (clen : BitVec 5) (cdisp : BitVec 13) (hsel : s.bd.selects = some .copy)
      (hstands : Stands s.bd (.copy clen cdisp)) (hnear : cdisp.toNat ≤ s.bd.dst.toNat) :
      BdEffect s (s.setBd (afterCopy s.bd clen cdisp))
  | copyByte (v : Byte) (hcopying : s.bd.copying)
      (hread : memRead .out s.bd.out (s.bd.dst.toNat - s.bd.cdisp.toNat) = some v) :
      BdEffect s (s.setBd (afterCopyByte s.bd v))
  /-- A tag other than 0x10 (R121). -/
  | badTag (v : Byte) (hsel : s.bd.selects = some .hdr) (hin : s.bd.cursor < s.bd.len.toNat)
      (hread : memRead .input s.bd.input s.bd.cursor = some v) (hv : v ≠ 0x10) :
      BdEffect s (raise .invalidHeader s)
  /-- A byte missing, and in a header no wrong tag before it (R122, R127). -/
  | truncated (kind : UnitKind) (hsel : s.bd.selects = some kind)
      (hend : s.bd.len.toNat < s.bd.cursor + kind.size)
      (htag : kind = .hdr → s.bd.cursor < s.bd.len.toNat →
        memRead .input s.bd.input s.bd.cursor = some 0x10) :
      BdEffect s (raise .truncatedInput s)
  /-- A displacement beyond the bytes produced (R123). -/
  | corrupt (clen : BitVec 5) (cdisp : BitVec 13) (hsel : s.bd.selects = some .copy)
      (hstands : Stands s.bd (.copy clen cdisp)) (hfar : s.bd.dst.toNat < cdisp.toNat) :
      BdEffect s (raise .corruptData s)

/-- What a step of BD answers is one of its effects. -/
theorem bdEffect_of_bdStep (h : bdStep s = .next t) : BdEffect s t := by
  rcases bdStep_cases h with ⟨hphase, rfl⟩ | ⟨hphase, h⟩ | ⟨n, hfetch, h⟩ | ⟨f, hfetch, h⟩ | ⟨d, hfetch, h⟩ |
    ⟨clen, cdisp, hfetch, h⟩ | ⟨kind, e, hsel, hfetch, rfl⟩
  · refine .rest ?_
    rw [Ne, status_eq_busy]
    rcases hphase with hphase | hphase | hphase <;> simp [hphase]
  · obtain ⟨hcopying, v, hread, rfl⟩ := copyByte_next h
    exact .copyByte v hcopying hread
  · obtain ⟨hsel, ⟨-, rfl⟩ | ⟨hmissing, -⟩⟩ := execHdr_next h
    · exact .hdr n hsel (stands_of_fetchBd hfetch).2
    · exact absurd (stands_of_fetchBd hfetch).2.below hmissing
  · obtain ⟨hsel, ⟨-, rfl⟩ | ⟨hmissing, -⟩⟩ := execFlag_next h
    · exact .flag f hsel (stands_of_fetchBd hfetch).2
    · exact absurd (stands_of_fetchBd hfetch).2.below hmissing
  · obtain ⟨hsel, ⟨-, rfl⟩ | ⟨hmissing, -⟩⟩ := execLit_next h
    · exact .lit d hsel (stands_of_fetchBd hfetch).2
    · exact absurd (stands_of_fetchBd hfetch).2.below hmissing
  · obtain ⟨hsel, ⟨-, hnear, rfl⟩ | ⟨-, hfar, rfl⟩ | ⟨hmissing, -⟩⟩ := execCopy_next h
    · exact .copy clen cdisp hsel (stands_of_fetchBd hfetch).2 hnear
    · exact .corrupt clen cdisp hsel (stands_of_fetchBd hfetch).2 hfar
    · exact absurd (stands_of_fetchBd hfetch).2.below hmissing
  · rcases cause_of_fetchBd_failure hfetch with ⟨rfl, rfl, hin, v, hread, hv⟩ | ⟨rfl, hend, htag⟩
    · exact .badTag v hsel hin hread hv
    · exact .truncated kind hsel hend htag

/-! ### The step that runs -/

/-- With IN loaded the fetch finds a unit at the cursor or the cause of a failure (R127). -/
theorem fetchBd_of_loaded {b : Bd} (kind : UnitKind) (hloaded : Loaded .input b.input b.len.toNat) :
    (∃ i, i.kind = kind ∧ Stands b i ∧ fetchBd b kind = .unit i) ∨ ∃ e, fetchBd b kind = .failure e := by
  cases hfetch : fetchBd b kind with
  | unit i =>
    obtain ⟨hkind, hstands⟩ := stands_of_fetchBd hfetch
    exact .inl ⟨i, hkind, hstands, rfl⟩
  | failure e => exact .inr ⟨e, rfl⟩
  | unloaded a =>
    unfold fetchBd at hfetch
    split at hfetch
    · next hbytes =>
      obtain ⟨hbelow, hnone⟩ := inBytes_error hbytes
      have := hloaded _ hbelow
      simp [hnone] at this
    · split at hfetch <;> cases hfetch

/-- BD's step raises what its fetch finds to raise. -/
theorem bdStep_eq_raise {kind : UnitKind} {e : Failure} (hsel : s.bd.selects = some kind)
    (hfetch : fetchBd s.bd kind = .failure e) : bdStep s = .next (raise e s) := by
  simp [bdStep_of_selects hsel, runUnit, hfetch]

/-- A stream unit in its position always answers a next state. -/
theorem exec_next_of_selects {i : Instr} (hsel : s.bd.selects = some i.kind) : ∃ t, exec i s = .next t := by
  cases i with
  | hdr n =>
    rw [exec, execHdr, if_pos (show s.bd.selects = some .hdr from hsel)]
    split <;> exact ⟨_, rfl⟩
  | flag f =>
    rw [exec, execFlag, if_pos (show s.bd.selects = some .flag from hsel)]
    split <;> exact ⟨_, rfl⟩
  | lit d =>
    rw [exec, execLit, if_pos (show s.bd.selects = some .lit from hsel)]
    split <;> exact ⟨_, rfl⟩
  | copy clen cdisp =>
    rw [exec, execCopy, if_pos (show s.bd.selects = some .copy from hsel)]
    split
    · split <;> exact ⟨_, rfl⟩
    · exact ⟨_, rfl⟩
  | pix2 hi lo => exact absurd rfl (kind_of_selects hsel).1
  | color x blue green red => exact absurd rfl (kind_of_selects hsel).2

/-- Where a unit is due and IN is loaded, BD's step answers a next state. -/
theorem bdStep_next_of_loaded {kind : UnitKind} (hsel : s.bd.selects = some kind)
    (hloaded : Loaded .input s.bd.input s.bd.len.toNat) : ∃ t, bdStep s = .next t := by
  rcases fetchBd_of_loaded kind hloaded with ⟨i, rfl, -, hfetch⟩ | ⟨e, hfetch⟩
  · rw [bdStep_eq_exec hsel hfetch]
    exact exec_next_of_selects hsel
  · exact ⟨_, bdStep_eq_raise hsel hfetch⟩

/-- Settles O16: the bytes decode to the unit the fetch finds, and a due unit makes BD busy. -/
theorem stepRunsTheDecodedStreamUnit : Obligations.StepRunsTheDecodedStreamUnit := by
  intro s kind bytes i hsel hlen hin hreads hdecode
  have hfetch : fetchBd s.bd kind = .unit i := fetchBd_of_reads hlen hin hreads hdecode
  have hbusy := busy_of_selects hsel
  have hstep := bdStep_eq_exec hsel hfetch
  refine ⟨hstep, fun hagenda => ?_, fun rest hagenda => ?_, fun rest hagenda => ?_⟩
  · rw [step_of_free hagenda, if_pos hbusy, hstep]
  · rw [step_of_bd hagenda]
    exact bdStep_eq_exec (s := s.setAgenda rest) hsel hfetch
  · rw [step_of_awaitBd hagenda, if_pos hbusy, hstep]

/-- Settles O17: TRD's step is the tile byte at `k` while it decodes, whichever move gives it the step. -/
theorem stepRunsTileBytesAndColourCalls : Obligations.StepRunsTileBytesAndColourCalls := by
  refine ⟨fun s v hdecoding hread => ?_, fun s c p rest hagenda => step_of_convert hagenda⟩
  have hstep := trdStep_of_decoding hdecoding hread
  refine ⟨hstep, fun hagenda hrest => ?_, fun rest hagenda => ?_, fun rest hagenda => ?_⟩
  · rw [step_of_free hagenda, if_neg hrest, hstep]
  · rw [step_of_trd hagenda]
    exact trdStep_of_decoding (s := s.setAgenda rest) hdecoding hread
  · rw [step_of_awaitTrd hagenda, if_pos (show s.trd.tstatus = .tbusy from hdecoding.1), hstep]

/-! ### Out of position -/

/-- A stream unit that is not selected is refused (log 12). -/
theorem exec_of_not_selects {i : Instr} (hkind : i.kind ≠ .pix2 ∧ i.kind ≠ .color)
    (hsel : s.bd.selects ≠ some i.kind) : exec i s = .refused .notSelected := by
  cases i with
  | hdr n => exact if_neg hsel
  | flag f => exact if_neg hsel
  | lit d => exact if_neg hsel
  | copy clen cdisp => exact if_neg hsel
  | pix2 hi lo => exact absurd rfl hkind.1
  | color x blue green red => exact absurd rfl hkind.2

/-- In a phase that fetches, a step with no unit due is refused (log 12). -/
theorem bdStep_of_no_unit (hphase : s.bd.phase = .flag ∨ s.bd.phase = .unit) (hsel : s.bd.selects = none) :
    bdStep s = .refused .notSelected := by
  unfold bdStep
  rcases hphase with hphase | hphase <;> simp only [hphase, hsel]

/-- Settles O18: each refusal is the failed test of its unit's or its step's conditions. -/
theorem unitsOutOfPositionAreRefused : Obligations.UnitsOutOfPositionAreRefused := by
  refine ⟨fun s i hkind hsel => exec_of_not_selects hkind hsel, fun s hi lo hdecoding => if_neg hdecoding,
    fun s hno => ?_, fun s hbusy hno => ?_⟩
  · rcases hno with ⟨hphase, hfull⟩ | ⟨hphase, hno⟩ | ⟨hphase, hno⟩
    · refine bdStep_of_no_unit (.inl hphase) ?_
      simp [Bd.selects, hphase, BitVec.not_lt.2 hfull]
    · refine bdStep_of_no_unit (.inr hphase) ?_
      have hnot : ¬ (s.bd.dst < s.bd.n ∧ s.bd.bit ≤ 7) := by bv_omega
      simp only [Bd.selects, hphase, if_neg hnot]
    · have hnot : ¬ s.bd.copying := by
        rintro ⟨-, hcrem, howed, hnear⟩
        rcases hno with hzero | hfull | hfar
        · rw [hzero] at hcrem
          exact absurd hcrem (by decide)
        · exact BitVec.not_lt.2 hfull howed
        · omega
      rw [bdStep_of_copy hphase, copyByte, if_neg hnot]
  · have hnot : ¬ s.trd.decoding := by
      rintro ⟨-, hk, hlen⟩
      simp only [Config.tileStreamBytes] at hk
      omega
    unfold trdStep
    simp only [hbusy, if_neg hnot]

end Sys2Proof.Proofs.BdSteps
end

section
/-! PROOFS. The header, the back-reference's decode step and the three failures with their causes. -/

namespace Sys2Proof.Proofs.HeaderAndFailures

open Sys2Proof.Machine Sys2Proof.Proofs.StreamUnits Sys2Proof.Proofs.UnitEncoding Sys2Proof.Proofs.BdSteps
  Sys2Proof.Proofs.HeaderAndCopyWord

variable {s t : State}

/-! ### The header -/

theorem cursor_of_hdr {b : Bd} (h : b.phase = .hdr) : b.cursor = b.offset.toNat := by
  rw [Bd.cursor, h]

/-- `HDR` with its four bytes there (R82). -/
theorem exec_hdr (n : BitVec 24) (hsel : s.bd.selects = some .hdr) (hin : s.bd.holds 4) :
    exec (.hdr n) s = .next (s.setBd (afterHdr s.bd n)) := by
  rw [exec, execHdr, if_pos hsel, if_pos hin]
  rfl

/-- Settles O19: with four bytes below a 32-bit length the cursor does not wrap. -/
theorem headerSetsTheLengthAndTheCursors : Obligations.HeaderSetsTheLengthAndTheCursors := by
  intro s n hphase hin
  have hcursor := cursor_of_hdr hphase
  refine ⟨_, exec_hdr n (selects_hdr.2 hphase) (by rw [Bd.holds, hcursor]; omega), ?_, fun a => rfl,
    rfl, fun hzero => ?_, rfl, rfl, rfl, rfl, rfl⟩
  · show (s.bd.offset + 4).toNat = _
    bv_omega
  · simp [afterHdr, hzero, Bd.response, memReadRange]

/-- What BD's step makes of a launch with its bytes loaded, in the order of R83's checks. -/
theorem bdStep_of_hdr (hphase : s.bd.phase = .hdr) (hloaded : Loaded .input s.bd.input s.bd.len.toNat) :
    (∃ n, Stands s.bd (.hdr n) ∧ bdStep s = .next (s.setBd (afterHdr s.bd n))) ∨
      (bdStep s = .next (raise .invalidHeader s) ∧ s.bd.offset.toNat < s.bd.len.toNat ∧
        ∃ v, memRead .input s.bd.input s.bd.offset.toNat = some v ∧ v ≠ 0x10) ∨
      (bdStep s = .next (raise .truncatedInput s) ∧ s.bd.len.toNat < s.bd.offset.toNat + 4 ∧
        (s.bd.offset.toNat < s.bd.len.toNat →
          memRead .input s.bd.input s.bd.offset.toNat = some 0x10)) := by
  have hsel := selects_hdr.2 hphase
  have hcursor := cursor_of_hdr hphase
  rcases fetchBd_of_loaded .hdr hloaded with ⟨i, hkind, hstands, hfetch⟩ | ⟨e, hfetch⟩
  · obtain ⟨n, rfl⟩ : ∃ n, i = .hdr n := by cases i <;> cases hkind; exact ⟨_, rfl⟩
    exact .inl ⟨n, hstands, (bdStep_eq_exec hsel hfetch).trans (exec_hdr n hsel hstands.below)⟩
  · have hstep := bdStep_eq_raise hsel hfetch
    rcases cause_of_fetchBd_failure hfetch with ⟨rfl, -, hin, hread⟩ | ⟨rfl, hend, htag⟩
    · rw [hcursor] at hin hread
      exact .inr (.inl ⟨hstep, hin, hread⟩)
    · rw [hcursor] at hend htag
      exact .inr (.inr ⟨hstep, hend, htag rfl⟩)

/-- A header that stands at the cursor begins with the tag (R62). -/
theorem tag_of_stands {b : Bd} {n : BitVec 24} (hphase : b.phase = .hdr) (h : Stands b (.hdr n)) :
    memRead .input b.input b.offset.toNat = some 0x10 := by
  have htag := h.reads 0 (size_pos .hdr)
  rwa [cursor_of_hdr hphase] at htag

/-- Settles O20: the three outcomes of a header exclude one another by the tag and the bound of its last byte. -/
theorem headerChecksComeInOrder : Obligations.HeaderChecksComeInOrder := by
  intro s hphase hloaded
  refine ⟨fun hend => ?_, fun v hin hread => ⟨fun hv => ?_, fun hv hend => ?_, fun hv hfour => ?_⟩⟩
  · exact ⟨_, bdStep_of_no_byte (selects_hdr.2 hphase) (by rwa [cursor_of_hdr hphase]), rfl, raise_response _ s⟩
  · rcases bdStep_of_hdr hphase hloaded with ⟨n, hstands, -⟩ | ⟨hstep, -⟩ | ⟨-, -, htag⟩
    · rw [tag_of_stands hphase hstands] at hread
      exact absurd (Option.some.inj hread).symm hv
    · exact ⟨_, hstep, rfl, raise_response _ s⟩
    · rw [htag hin] at hread
      exact absurd (Option.some.inj hread).symm hv
  · rcases bdStep_of_hdr hphase hloaded with ⟨n, hstands, -⟩ | ⟨-, -, v', hread', hv'⟩ | ⟨hstep, -⟩
    · have hbelow := hstands.below
      rw [cursor_of_hdr hphase] at hbelow
      simp only [Instr.kind, UnitKind.size] at hbelow
      omega
    · rw [hread'] at hread
      exact absurd ((Option.some.inj hread).trans hv) hv'
    · exact ⟨_, hstep, rfl, raise_response _ s⟩
  · rcases bdStep_of_hdr hphase hloaded with ⟨n, -, hstep⟩ | ⟨-, -, v', hread', hv'⟩ | ⟨-, hend, -⟩
    · exact ⟨_, hstep, afterHdr_phase_ne_err _ _, rfl⟩
    · rw [hread'] at hread
      exact absurd ((Option.some.inj hread).trans hv) hv'
    · omega

/-! ### The decode step of a back-reference -/

/-- Settles O23: the two bytes at `src` are the unit, and 32 bits hold the bound of the second. -/
theorem copyDecodeLoadsTheCopyRegisters : Obligations.CopyDecodeLoadsTheCopyRegisters := by
  intro s clen cdisp hphase howed hbit hflag hsrc hnear
  have hsel := selects_copy.2 ⟨hphase, ⟨howed, hbit⟩, hflag⟩
  have hcursor := cursor_of_unit hphase
  have hin : s.bd.cursor + 2 ≤ s.bd.len.toNat := by rw [hcursor]; omega
  refine ⟨exec_copy_of_le clen hsel hin hnear, fun b1 b2 hb1 hb2 => ?_⟩
  refine bdStep_eq_exec hsel (fetchBd_of_reads (bytes := [b1, b2]) rfl hin (fun j hj => ?_) rfl)
  rw [hcursor]
  obtain rfl | rfl : j = 0 ∨ j = 1 := by simp only [UnitKind.size] at hj; omega
  · exact hb1
  · exact hb2

/-! ### Failures -/

/-- Settles O28: the fetch of a unit that is no header fails on missing bytes only as TruncatedInput. -/
theorem missingStreamBytesRaiseTruncatedInput : Obligations.MissingStreamBytesRaiseTruncatedInput := by
  intro s kind hphase hsel hloaded hend
  have hkind : kind ≠ .hdr := fun e => hphase (selects_hdr.1 (e ▸ hsel))
  have hfetch : fetchBd s.bd kind = .failure .truncatedInput := by
    rcases fetchBd_of_loaded kind hloaded with ⟨i, rfl, hstands, -⟩ | ⟨e, hfetch⟩
    · exact absurd hstands.below (by omega)
    · rcases cause_of_fetchBd_failure hfetch with ⟨-, hhdr, -⟩ | ⟨rfl, -⟩
      · exact absurd hhdr hkind
      · exact hfetch
  exact ⟨_, bdStep_eq_raise hsel hfetch, rfl, rfl, raise_response _ s, rfl, rfl, rfl, rfl, rfl⟩

/-- A back-reference that stands at `src` is its two bytes there, which give its displacement (R68). -/
theorem bytes_of_stands_copy {b : Bd} {clen : BitVec 5} {cdisp : BitVec 13} (hphase : b.phase = .unit)
    (h : Stands b (.copy clen cdisp)) :
    b.src.toNat + 1 < b.len.toNat ∧ ∃ b1 b2, memRead .input b.input b.src.toNat = some b1 ∧
      memRead .input b.input (b.src.toNat + 1) = some b2 ∧ clen = copyLength b1 ∧
      cdisp = copyDisplacement b1 b2 := by
  obtain ⟨hwf, hbelow, hreads⟩ := h
  rw [cursor_of_unit hphase] at hbelow hreads
  exact ⟨hbelow, _, _, hreads 0 (size_pos .copy), hreads 1 Nat.one_lt_two, (copyLength_copyByte1 hwf).symm,
    (copyDisplacement_copyBytes hwf).symm⟩

/-- Settles O29: of a step's effects only the three failures end in ERR. -/
theorem everyFailureHasItsCause : Obligations.EveryFailureHasItsCause := by
  intro s t hstep hbefore hafter
  cases bdEffect_of_bdStep hstep with
  | rest => exact absurd hafter hbefore
  | hdr n => exact absurd hafter (afterHdr_phase_ne_err _ _)
  | flag f => cases hafter
  | lit d => exact absurd hafter nextPhase_ne_err
  | copy clen cdisp => cases hafter
  | copyByte v => exact absurd hafter (afterCopyByte_phase_ne_err _ _)
  | badTag v hsel hin hread hv =>
    have hphase := selects_hdr.1 hsel
    rw [cursor_of_hdr hphase] at hin hread
    exact ⟨rfl, rfl, .inl ⟨raise_response _ s, rfl, hphase, hin, v, hread, hv⟩⟩
  | truncated kind hsel hend htag =>
    exact ⟨rfl, rfl, .inr (.inl ⟨raise_response _ s, rfl, kind, hsel, hend⟩)⟩
  | corrupt clen cdisp hsel hstands hfar =>
    obtain ⟨hphase, -, hflag⟩ := selects_copy.1 hsel
    obtain ⟨hin, b1, b2, hb1, hb2, -, rfl⟩ := bytes_of_stands_copy hphase hstands
    rw [copyDisplacement_toNat] at hfar
    exact ⟨rfl, rfl, .inr (.inr ⟨raise_response _ s, rfl, hphase, hflag, hin, b1, b2, hb1, hb2, hfar⟩)⟩

end Sys2Proof.Proofs.HeaderAndFailures
end

section
/-! PROOFS. What the engines' steps leave alone, that neither engine's step depends on the other, and that an engine at rest
changes only by a launch of it or a reset. -/

namespace Sys2Proof.Proofs.StepFrames

open Sys2Proof.Machine Sys2Proof.Proofs.StreamUnits Sys2Proof.Proofs.BdSteps Sys2Proof.Proofs.HeaderAndFailures
  Sys2Proof.Proofs.TileRaster

variable {s t u : State}

/-! ### The frame of BD's step -/

/-- BD's step puts another BD with the same arguments in place, or raises a failure, and leaves the rest alone. -/
theorem bdStep_frame (h : bdStep s = .next t) :
    t.bd.input = s.bd.input ∧ t.bd.len = s.bd.len ∧ t.bd.offset = s.bd.offset ∧
      t.trd = s.trd ∧ t.conv = s.conv ∧ t.host = s.host ∧ t.agenda = s.agenda := by
  cases bdEffect_of_bdStep h <;> exact ⟨rfl, rfl, rfl, rfl, rfl, rfl, rfl⟩

/-- TRD's step puts another TRD with the same arguments in place and leaves the rest alone. -/
theorem trdStep_frame (h : trdStep s = .next t) :
    t.trd.tile = s.trd.tile ∧ t.trd.tlen = s.trd.tlen ∧ t.trd.pal = s.trd.pal ∧
      t.bd = s.bd ∧ t.conv = s.conv ∧ t.host = s.host ∧ t.agenda = s.agenda ∧ t.draws = s.draws := by
  rcases trdStep_next h with ⟨-, rfl⟩ | ⟨-, v, -, h⟩
  · exact ⟨rfl, rfl, rfl, rfl, rfl, rfl, rfl, rfl⟩
  · obtain ⟨-, rfl⟩ := execPix2_next h
    exact ⟨rfl, rfl, rfl, rfl, rfl, rfl, rfl, rfl⟩

/-- Settles O31: the frames of the two steps. -/
theorem engineStepsLeaveArgumentsAndOthersAlone : Obligations.EngineStepsLeaveArgumentsAndOthersAlone :=
  ⟨fun _ _ => bdStep_frame, fun _ _ => trdStep_frame⟩

/-- BD after a unit that completes. -/
def afterUnit (b : Bd) : Instr → Bd
  | .hdr n => afterHdr b n
  | .flag f => afterFlag b f
  | .lit d => afterLit b d
  | .copy clen cdisp => afterCopy b clen cdisp
  | .pix2 _ _ => b
  | .color _ _ _ _ => b

/-- A stream unit completes or raises a failure. -/
theorem exec_stream_next {i : Instr} (hkind : i.kind ≠ .pix2 ∧ i.kind ≠ .color) (h : exec i s = .next t) :
    t = s.setBd (afterUnit s.bd i) ∨ ∃ e, t = raise e s := by
  cases i with
  | hdr n => exact (execHdr_next h).2.imp (fun h => h.2) fun h => ⟨_, h.2⟩
  | flag f => exact (execFlag_next h).2.imp (fun h => h.2) fun h => ⟨_, h.2⟩
  | lit d => exact (execLit_next h).2.imp (fun h => h.2) fun h => ⟨_, h.2⟩
  | copy clen cdisp =>
    obtain ⟨-, ⟨-, -, rfl⟩ | ⟨-, -, rfl⟩ | ⟨-, rfl⟩⟩ := execCopy_next h
    · exact .inl rfl
    · exact .inr ⟨_, rfl⟩
    · exact .inr ⟨_, rfl⟩
  | pix2 hi lo => exact absurd rfl hkind.1
  | color x blue green red => exact absurd rfl hkind.2

/-- No unit that completes leaves BD in ERR. -/
theorem afterUnit_phase_ne_err {b : Bd} {i : Instr} (hkind : i.kind ≠ .pix2 ∧ i.kind ≠ .color) :
    (afterUnit b i).phase ≠ .err := by
  cases i with
  | hdr n => exact afterHdr_phase_ne_err b n
  | flag f => exact nofun
  | lit d => exact nextPhase_ne_err
  | copy clen cdisp => exact nofun
  | pix2 hi lo => exact absurd rfl hkind.1
  | color x blue green red => exact absurd rfl hkind.2

/-- Settles O34: a failure leaves what `raise` leaves, and a unit that completes what its row of the table leaves. -/
theorem streamUnitsLeaveTheRestUnchanged : Obligations.StreamUnitsLeaveTheRestUnchanged := by
  intro i s t hkind h
  rcases exec_stream_next hkind h with rfl | ⟨e, rfl⟩
  · refine ⟨?_, fun herr => absurd herr (afterUnit_phase_ne_err hkind), fun _ => ?_⟩
    · cases i <;> exact ⟨rfl, rfl, rfl, rfl, rfl, rfl, rfl⟩
    · cases i with
      | hdr n => exact ⟨rfl, rfl, rfl, rfl, rfl, rfl⟩
      | flag f => exact ⟨rfl, rfl, rfl, rfl, rfl, rfl, rfl⟩
      | lit d => exact ⟨rfl, rfl, rfl, rfl, rfl, rfl, fun a ha => memRead_memWrite_of_ne ha⟩
      | copy clen cdisp => exact ⟨rfl, rfl, rfl, rfl, rfl, rfl⟩
      | pix2 hi lo => exact absurd rfl hkind.1
      | color x blue green red => exact absurd rfl hkind.2
  · exact ⟨⟨rfl, rfl, rfl, rfl, rfl, rfl, rfl⟩, fun _ => ⟨rfl, rfl⟩, fun hne => absurd rfl hne⟩

/-! ### The cursors -/

/-- A unit of `count` bytes below a 32-bit length does not wrap the cursor behind it. -/
theorem add_toNat_of_below {a len : BitVec 32} {count : Nat} (h : a.toNat + count ≤ len.toNat) :
    (a + BitVec.ofNat 32 count).toNat = a.toNat + count := by
  have hlen := len.isLt
  rw [BitVec.toNat_add, BitVec.toNat_ofNat]
  omega

/-- Settles O32: each effect by the phase that selects it; a failure is excluded. -/
theorem readCursorOnlyMovesForward : Obligations.ReadCursorOnlyMovesForward := by
  intro s t hstep hstream hnoerr
  cases bdEffect_of_bdStep hstep with
  | rest hrest =>
    refine absurd (status_eq_busy.2 ?_) hrest
    exact .inr hstream
  | hdr n hsel => simp [Bd.Streaming, selects_hdr.1 hsel] at hstream
  | flag f hsel hstands =>
    obtain ⟨hphase, -⟩ := selects_flag.1 hsel
    have hin := hstands.below
    rw [cursor_of_flag hphase] at hin
    exact ⟨rfl, .inl ⟨hphase, add_toNat_of_below hin⟩⟩
  | lit d hsel hstands =>
    obtain ⟨hphase, -, hflag⟩ := selects_lit.1 hsel
    have hin := hstands.below
    rw [cursor_of_unit hphase] at hin
    exact ⟨rfl, .inr (.inl ⟨hphase, hflag, add_toNat_of_below hin⟩)⟩
  | copy clen cdisp hsel hstands =>
    obtain ⟨hphase, -, hflag⟩ := selects_copy.1 hsel
    have hin := hstands.below
    rw [cursor_of_unit hphase] at hin
    exact ⟨rfl, .inr (.inr (.inl ⟨hphase, hflag, add_toNat_of_below hin⟩))⟩
  | copyByte v hcopying => exact ⟨rfl, .inr (.inr (.inr ⟨hcopying.1, rfl⟩))⟩
  | badTag => exact absurd rfl hnoerr
  | truncated => exact absurd rfl hnoerr
  | corrupt => exact absurd rfl hnoerr

/-- A cursor below another 24-bit number does not wrap when it moves by one. -/
theorem succ_toNat_of_lt {a n : BitVec 24} (h : a < n) : (a + 1).toNat = a.toNat + 1 := by
  bv_omega

/-- Settles O33: only a literal and a copied byte write, each at `dst`. -/
theorem outputIsWrittenForwardOneByteAtATime : Obligations.OutputIsWrittenForwardOneByteAtATime := by
  intro s t hstep hstream hnoerr
  have hwrite : ∀ (v : Byte), s.bd.dst < s.bd.n → t.bd.dst = s.bd.dst + 1 →
      t.bd.out = memWrite .out s.bd.out s.bd.dst.toNat v →
      s.bd.dst < s.bd.n ∧ t.bd.dst.toNat = s.bd.dst.toNat + 1 ∧
        (memRead .out t.bd.out s.bd.dst.toNat).isSome = true ∧
        ∀ a, a ≠ s.bd.dst.toNat → memRead .out t.bd.out a = memRead .out s.bd.out a := by
    intro v howed hdst hout
    rw [hdst, hout, memRead_memWrite_out]
    exact ⟨howed, succ_toNat_of_lt howed, rfl, fun a ha => memRead_memWrite_of_ne ha⟩
  cases bdEffect_of_bdStep hstep with
  | rest => exact .inl ⟨rfl, rfl⟩
  | hdr n hsel => simp [Bd.Streaming, selects_hdr.1 hsel] at hstream
  | flag => exact .inl ⟨rfl, rfl⟩
  | lit d hsel =>
    obtain ⟨-, ⟨howed, -⟩, -⟩ := selects_lit.1 hsel
    exact .inr (hwrite d howed rfl rfl)
  | copy => exact .inl ⟨rfl, rfl⟩
  | copyByte v hcopying =>
    obtain ⟨-, -, howed, -⟩ := hcopying
    exact .inr (hwrite v howed rfl rfl)
  | badTag => exact absurd rfl hnoerr
  | truncated => exact absurd rfl hnoerr
  | corrupt => exact absurd rfl hnoerr

/-! ### BD's step in another machine -/

/-- A machine with the BD, and the count of free values drawn, of another. -/
def withBdOf (u s : State) : State := (u.setBd s.bd).setDraws s.draws

theorem withBdOf_self (h : s.bd = u.bd) (hdraws : s.draws = u.draws) : withBdOf u s = u := by
  rw [withBdOf, h, hdraws]
  rfl

/-- An outcome with its next state, if it has one, mapped. -/
def mapNext (f : State → State) : Host.Outcome State Fault Refusal → Host.Outcome State Fault Refusal
  | .next t => .next (f t)
  | .fault e => .fault e
  | .refused r => .refused r

theorem mapNext_ite (f : State → State) (p : Prop) [Decidable p] (a b : Host.Outcome State Fault Refusal) :
    mapNext f (if p then a else b) = if p then mapNext f a else mapNext f b := by
  split <;> rfl

/-- A stream unit means the same to every machine with the same BD. -/
theorem exec_withBdOf (u s : State) {i : Instr} (hkind : i.kind ≠ .pix2 ∧ i.kind ≠ .color) :
    exec i (withBdOf u s) = mapNext (withBdOf u) (exec i s) := by
  cases i with
  | hdr n =>
    rw [exec, exec, execHdr, execHdr, mapNext_ite, mapNext_ite]
    rfl
  | flag f =>
    rw [exec, exec, execFlag, execFlag, mapNext_ite, mapNext_ite]
    rfl
  | lit d =>
    rw [exec, exec, execLit, execLit, mapNext_ite, mapNext_ite]
    rfl
  | copy clen cdisp =>
    rw [exec, exec, execCopy, execCopy, mapNext_ite, mapNext_ite, mapNext_ite]
    rfl
  | pix2 hi lo => exact absurd rfl hkind.1
  | color x blue green red => exact absurd rfl hkind.2

theorem copyByte_withBdOf (u s : State) : copyByte (withBdOf u s) = mapNext (withBdOf u) (copyByte s) := by
  rw [copyByte, copyByte, mapNext_ite]
  show (if s.bd.copying then _ else _) = _
  congr 1
  cases hread : memRead .out s.bd.out (s.bd.dst.toNat - s.bd.cdisp.toNat) <;>
    simp only [withBdOf, State.setDraws_bd, State.setBd_bd, hread] <;> rfl

theorem runUnit_withBdOf (u s : State) {kind : UnitKind} (hsel : s.bd.selects = some kind) :
    runUnit kind (withBdOf u s) = mapNext (withBdOf u) (runUnit kind s) := by
  have hbd : (withBdOf u s).bd = s.bd := rfl
  rw [runUnit, runUnit, hbd]
  cases hfetch : fetchBd s.bd kind with
  | unit i =>
    obtain ⟨rfl, -⟩ := stands_of_fetchBd hfetch
    exact exec_withBdOf u s (kind_of_selects hsel)
  | failure e => rfl
  | unloaded a => rfl

/-- BD takes the same step in every machine with the same BD. -/
theorem bdStep_withBdOf (u s : State) : bdStep (withBdOf u s) = mapNext (withBdOf u) (bdStep s) := by
  by_cases hbusy : s.bd.status = .busy
  · by_cases hcopy : s.bd.phase = .copy
    · rw [bdStep_of_copy hcopy, bdStep_of_copy (s := withBdOf u s) hcopy]
      exact copyByte_withBdOf u s
    · cases hsel : s.bd.selects with
      | some kind =>
        rw [bdStep_of_selects hsel, bdStep_of_selects (s := withBdOf u s) hsel]
        exact runUnit_withBdOf u s hsel
      | none =>
        have hphase : s.bd.phase = .flag ∨ s.bd.phase = .unit := by
          rcases status_eq_busy.1 hbusy with hphase | hphase | hphase | hphase
          · simp [selects_hdr.2 hphase] at hsel
          · exact .inl hphase
          · exact .inr hphase
          · exact absurd hphase hcopy
        rw [bdStep_of_no_unit hphase hsel, bdStep_of_no_unit (s := withBdOf u s) hphase hsel]
        rfl
  · rw [bdStep_of_rest hbusy, bdStep_of_rest (s := withBdOf u s) hbusy]
    rfl

/-- Settles O35: the second machine is one with the first's BD. -/
theorem bdStepDependsOnBdAlone : Obligations.BdStepDependsOnBdAlone := by
  intro s u hbd hdraws
  have hstep := bdStep_withBdOf u s
  rw [withBdOf_self hbd hdraws] at hstep
  refine ⟨fun t h => ⟨withBdOf u t, ?_, rfl, rfl⟩, fun f h => ?_, fun r h => ?_⟩ <;> rw [hstep, h] <;> rfl

/-- TRD takes the same step in every machine with the same TRD. -/
theorem trdStep_setTrd (h : trdStep s = .next u) (t : State) (ht : t.trd = s.trd) :
    trdStep t = .next (t.setTrd u.trd) := by
  rcases trdStep_next h with ⟨hrest, rfl⟩ | ⟨hdecoding, v, hread, h⟩
  · rw [trdStep_of_rest (by rwa [ht]), ← ht]
    rfl
  · obtain ⟨-, rfl⟩ := execPix2_next h
    rw [← ht] at hdecoding hread
    rw [trdStep_of_decoding hdecoding hread, decodePix2, exec_pix2 _ _ hdecoding, ht]
    rfl

/-- Settles O36: either order gives TRD's new registers to the machine with BD's new ones. -/
theorem engineStepsCommute : Obligations.EngineStepsCommute := by
  intro s t u hbd htrd
  obtain ⟨-, -, -, htrd_eq, hconv, hhost, hagenda⟩ := bdStep_frame hbd
  obtain ⟨-, -, -, hbd_eq, hconv', hhost', hagenda', hdraws⟩ := trdStep_frame htrd
  refine ⟨t.setTrd u.trd, trdStep_setTrd htrd t htrd_eq, ?_⟩
  have hstep := bdStep_withBdOf u s
  rw [withBdOf_self hbd_eq.symm hdraws.symm, hbd] at hstep
  have hmeet : withBdOf u t = t.setTrd u.trd := by
    simp only [withBdOf, State.setBd, State.setDraws, State.setTrd, hconv, hhost, hagenda, hconv', hhost', hagenda']
  rw [hstep, mapNext, hmeet]

/-! ### Engines at rest -/

/-- Settles O30: of all a step can do, only a launch of it or a reset touches an engine at rest. -/
theorem engineAtRestChangesOnlyByLaunchOrReset : Obligations.EngineAtRestChangesOnlyByLaunchOrReset := by
  intro s t hstep hreset
  rcases step_next hstep with ⟨a, rest, hagenda, h⟩ | ⟨ms, h⟩ | ⟨ms, h⟩ | ⟨ms, rfl⟩
  · rcases hostAct_next h with ⟨bytes, offset, rfl, -, -, rfl⟩ | ⟨bytes, palette, rfl, -, rfl⟩ |
      ⟨g, p, rfl, hlaunch⟩ | ⟨-, hs, rfl⟩ | ⟨c, p, rfl, cv, rfl⟩ | ⟨rfl, rfl⟩
    · exact ⟨fun _ hno => absurd hagenda (hno bytes offset rest), fun _ _ _ => rfl⟩
    · exact ⟨fun _ _ => rfl, fun _ hno => absurd hagenda (hno bytes palette rest)⟩
    · refine ⟨fun _ _ => ?_, fun _ _ hno => absurd hagenda (hno g p rest)⟩
      rcases hlaunch with rfl | ⟨-, bytes, palette, rfl⟩ <;> rfl
    · exact ⟨fun _ _ => rfl, fun _ _ _ => rfl⟩
    · exact ⟨fun _ _ => rfl, fun _ _ _ => rfl⟩
    · exact absurd hagenda (hreset rest)
  · refine ⟨fun hrest _ => ?_, fun _ _ _ => ?_⟩
    · rw [bdStep_of_rest (s := s.setAgenda ms) hrest] at h
      cases h
      rfl
    · obtain ⟨-, -, -, htrd, -⟩ := bdStep_frame h
      exact htrd
  · refine ⟨fun _ _ => ?_, fun hrest _ _ => ?_⟩
    · obtain ⟨-, -, -, hbd, -⟩ := trdStep_frame h
      exact hbd
    · rw [trdStep_of_rest (s := s.setAgenda ms) hrest] at h
      cases h
      rfl
  · exact ⟨fun _ _ => rfl, fun _ _ _ => rfl⟩

/-! ### The frame of a tile byte -/

/-- A pair leaves every byte outside its eight alone (R102). -/
theorem memRead_putPair_of_outside (m : List Host.Cell) (pal : Palette) {k a : Nat} (hi lo : BitVec 4)
    (h : a < rasterAddr (leftColumn k) (pixelRow k) ∨ rasterAddr (leftColumn k) (pixelRow k) + 8 ≤ a) :
    memRead .raster (putPair m pal k hi lo) a = memRead .raster m a := by
  have hnext := rasterAddr_rightColumn k (pixelRow k)
  rw [putPair, memRead_putPixel_of_outside _ _ _ (by omega), memRead_putPixel_of_outside _ _ _ (by omega)]

/-- Settles O38: a tile byte puts its pair and moves `k`. -/
theorem tileByteLeavesTheRestUnchanged : Obligations.TileByteLeavesTheRestUnchanged := by
  intro s t hi lo h
  obtain ⟨-, rfl⟩ := execPix2_next h
  exact ⟨fun a ha => memRead_putPair_of_outside _ _ hi lo ha, rfl, rfl, rfl, rfl, rfl, rfl, rfl, rfl⟩

end Sys2Proof.Proofs.StepFrames
end

section
/-! PROOFS. The invariant of BD (10_state.md section 8): what each phase asks for, that every effect of a step keeps it, and
that from it a busy BD always answers a next state. -/

namespace Sys2Proof.Proofs.BdInvariant

open Sys2Proof.Machine Sys2Proof.Proofs.StreamUnits Sys2Proof.Proofs.UnitEncoding Sys2Proof.Proofs.BdSteps
  Sys2Proof.Proofs.HeaderAndFailures Sys2Proof.Proofs.StepFrames

variable {s t : State} {b : Bd}

/-! ### OUT as a list that grows at its end -/

/-- A write behind every listed address is put at the end. -/
theorem memWrite_at_end {m : List Host.Cell} {n : Nat} {v : Byte} (h : ∀ c ∈ m, c.1 < n) :
    memWrite .out m n v = m ++ [(n, v)] := by
  induction m with
  | nil => rfl
  | cons c rest ih =>
    have hc : c.1 < n := h c (by simp)
    rw [memWrite, if_neg (by omega), if_neg (by omega), ih fun d hd => h d (by simp [hd])]
    rfl

theorem fst_lt_of_writtenUpTo {m : List Host.Cell} {n : Nat} (h : WrittenUpTo m n) {c : Host.Cell} (hc : c ∈ m) :
    c.1 < n := by
  have hmem : c.1 ∈ m.map Prod.fst := List.mem_map_of_mem hc
  rw [h] at hmem
  exact List.mem_range.1 hmem

/-- The byte written at `dst` is the next one (R37 I3). -/
theorem memWrite_of_writtenUpTo {m : List Host.Cell} {n : Nat} (h : WrittenUpTo m n) (v : Byte) :
    memWrite .out m n v = m ++ [(n, v)] :=
  memWrite_at_end fun _ hc => fst_lt_of_writtenUpTo h hc

theorem writtenUpTo_succ {m : List Host.Cell} {n : Nat} (h : WrittenUpTo m n) (v : Byte) :
    WrittenUpTo (memWrite .out m n v) (n + 1) := by
  rw [memWrite_of_writtenUpTo h, WrittenUpTo, List.map_append, h, List.range_succ]
  rfl

/-- Bytes written in order are in canonical form. -/
theorem memWf_of_writtenUpTo {m : List Host.Cell} {n : Nat} (h : WrittenUpTo m n) : MemWf .out m := by
  refine ⟨?_, fun c _ => nofun⟩
  have hrising := List.pairwise_lt_range (n := n)
  rwa [← h, List.pairwise_map] at hrising

/-! ### The invariant by phases -/

/-- What holds from the header on: IN is loaded, the cursors are in their ranges, and OUT is written up to `dst`
(R37 I1 to I3 and I6). -/
structure InBlock (b : Bd) : Prop where
  inputWf : MemWf .input b.input
  loaded : Loaded .input b.input b.len.toNat
  headerPassed : b.offset.toNat + 4 ≤ b.src.toNat
  srcBelow : b.src ≤ b.len
  written : WrittenUpTo b.out b.dst.toNat
  noError : b.errcode = .noError

theorem inBlock_of_inv (hinv : b.Inv) (hstream : b.Streaming) : InBlock b ∧ b.dst < b.n := by
  obtain ⟨⟨hwf, hloaded, -⟩, hrules, -⟩ := hinv
  obtain ⟨howed, hheader, hsrc, hwritten, herr⟩ := hrules hstream
  exact ⟨⟨hwf, hloaded, hheader, hsrc, hwritten, herr⟩, howed⟩

theorem inv_of_flag (h : InBlock b) (hphase : b.phase = .flag) (howed : b.dst < b.n) : b.Inv :=
  ⟨⟨h.inputWf, h.loaded, memWf_of_writtenUpTo h.written⟩,
    fun _ => ⟨howed, h.headerPassed, h.srcBelow, h.written, h.noError⟩,
    by simp [hphase], by simp [hphase], by simp [hphase], by simp [hphase], by simp [hphase]⟩

theorem inv_of_unit (h : InBlock b) (hphase : b.phase = .unit) (howed : b.dst < b.n) (hbit : b.bit ≤ 7) : b.Inv :=
  ⟨⟨h.inputWf, h.loaded, memWf_of_writtenUpTo h.written⟩,
    fun _ => ⟨howed, h.headerPassed, h.srcBelow, h.written, h.noError⟩,
    fun _ => hbit, by simp [hphase], by simp [hphase], by simp [hphase], by simp [hphase]⟩

theorem inv_of_copy (h : InBlock b) (hphase : b.phase = .copy) (howed : b.dst < b.n)
    (hcopy : b.bit ≤ 8 ∧ 1 ≤ b.crem ∧ b.crem ≤ 18 ∧ 1 ≤ b.cdisp ∧ b.cdisp ≤ 4096 ∧
      b.cdisp.toNat ≤ b.dst.toNat) : b.Inv :=
  ⟨⟨h.inputWf, h.loaded, memWf_of_writtenUpTo h.written⟩,
    fun _ => ⟨howed, h.headerPassed, h.srcBelow, h.written, h.noError⟩,
    by simp [hphase], fun _ => hcopy, by simp [hphase], by simp [hphase], by simp [hphase]⟩

theorem inv_of_done (h : InBlock b) (hphase : b.phase = .done) (hfull : b.dst = b.n) : b.Inv :=
  ⟨⟨h.inputWf, h.loaded, memWf_of_writtenUpTo h.written⟩,
    by simp [Bd.Streaming, hphase], by simp [hphase], by simp [hphase],
    fun _ => ⟨hfull, hfull ▸ h.written, h.noError⟩, by simp [hphase], by simp [hphase]⟩

/-- Sequencing keeps the invariant: each of its three phases gets what it asks for (R95). -/
theorem inv_of_nextPhase (h : InBlock b) (hphase : b.phase = nextPhase b.n b.dst b.bit) (hle : b.dst ≤ b.n)
    (hbit : b.bit ≤ 8) : b.Inv := by
  unfold nextPhase at hphase
  split at hphase
  · next hfull => exact inv_of_done h hphase (by bv_omega)
  · next howed =>
    have howed : b.dst < b.n := BitVec.not_le.1 howed
    split at hphase
    · exact inv_of_flag h hphase howed
    · exact inv_of_unit h hphase howed (by bv_omega)

/-- A failure keeps the invariant, which asks only for the code and the two memories in ERR. -/
theorem inv_of_raise (hinv : s.bd.Inv) (e : Failure) : (raise e s).bd.Inv := by
  obtain ⟨hmemories, -⟩ := hinv
  exact ⟨hmemories, by simp [Bd.Streaming], by simp, by simp, by simp, fun _ => e.code_ne_noError, by simp⟩

/-- A launch keeps the invariant: IN is loaded, and OUT is as it was (R81). -/
theorem inv_of_launchBd (hinv : s.bd.Inv) {bytes : List Byte} (offset : BitVec 32)
    (hlen : bytes.length < Config.lenBound) : (launchBd bytes offset s).bd.Inv := by
  obtain ⟨⟨-, -, hout⟩, -⟩ := hinv
  obtain ⟨hwf, hlenNat, hread⟩ := launchBd_loaded bytes offset s hlen
  have hphase : (launchBd bytes offset s).bd.phase = .hdr := rfl
  refine ⟨⟨hwf, fun a ha => ?_, hout⟩, by simp [Bd.Streaming, hphase], by simp [hphase], by simp [hphase],
    by simp [hphase], by simp [hphase], fun _ => rfl⟩
  rw [hlenNat] at ha
  simp [hread, ha]

/-! ### Every effect keeps the invariant -/

/-- A header that stands at the cursor opens a block with nothing written (R82, R85). -/
theorem inBlock_afterHdr {n : BitVec 24} (hwf : MemWf .input b.input) (hloaded : Loaded .input b.input b.len.toNat)
    (hphase : b.phase = .hdr) (herr : b.errcode = .noError) (hstands : Stands b (.hdr n)) :
    InBlock (afterHdr b n) := by
  have hin : b.offset.toNat + 4 ≤ b.len.toNat := by
    have hbelow := hstands.below
    rwa [cursor_of_hdr hphase] at hbelow
  have hsrc : (b.offset + 4).toNat = b.offset.toNat + 4 := add_toNat_of_below hin
  exact
    { inputWf := hwf
      loaded := hloaded
      headerPassed := hsrc.ge
      srcBelow := by rw [BitVec.le_def]; exact hsrc.trans_le hin
      written := rfl
      noError := herr }

theorem inv_afterHdr {n : BitVec 24} (h : InBlock (afterHdr b n)) : (afterHdr b n).Inv := by
  by_cases hzero : n = 0
  · exact inv_of_done h (if_pos hzero) hzero.symm
  · exact inv_of_flag h (if_neg hzero) (by show 0 < n; bv_omega)

/-- The cursor behind a unit that stands at `src` is behind the header and not past `LEN`. -/
theorem inBlock_src (h : InBlock b) {i : Instr} (hcursor : b.cursor = b.src.toNat) (hstands : Stands b i) :
    b.offset.toNat + 4 ≤ (b.src + BitVec.ofNat 32 i.kind.size).toNat ∧
      b.src + BitVec.ofNat 32 i.kind.size ≤ b.len := by
  have hin := hstands.below
  rw [hcursor] at hin
  have hsrc := add_toNat_of_below hin
  have hheader := h.headerPassed
  rw [BitVec.le_def, hsrc]
  exact ⟨by omega, hin⟩

/-- A byte written at `dst` leaves OUT written up to the next `dst`. -/
theorem written_after_write (h : InBlock b) (howed : b.dst < b.n) (v : Byte) :
    WrittenUpTo (memWrite .out b.out b.dst.toNat v) (b.dst + 1).toNat := by
  rw [succ_toNat_of_lt howed]
  exact writtenUpTo_succ h.written v

theorem inBlock_afterFlag {f : Byte} (h : InBlock b) (hphase : b.phase = .flag) (hstands : Stands b (.flag f)) :
    InBlock (afterFlag b f) :=
  have ⟨hheader, hsrc⟩ := inBlock_src h (cursor_of_flag hphase) hstands
  { h with headerPassed := hheader, srcBelow := hsrc }

theorem inBlock_afterLit {d : Byte} (h : InBlock b) (hphase : b.phase = .unit) (howed : b.dst < b.n)
    (hstands : Stands b (.lit d)) : InBlock (afterLit b d) :=
  have ⟨hheader, hsrc⟩ := inBlock_src h (cursor_of_unit hphase) hstands
  { h with headerPassed := hheader, srcBelow := hsrc, written := written_after_write h howed d }

theorem inBlock_afterCopy {clen : BitVec 5} {cdisp : BitVec 13} (h : InBlock b) (hphase : b.phase = .unit)
    (hstands : Stands b (.copy clen cdisp)) : InBlock (afterCopy b clen cdisp) :=
  have ⟨hheader, hsrc⟩ := inBlock_src h (cursor_of_unit hphase) hstands
  { h with headerPassed := hheader, srcBelow := hsrc }

theorem inBlock_afterCopyByte (h : InBlock b) (howed : b.dst < b.n) (v : Byte) : InBlock (afterCopyByte b v) :=
  { h with written := written_after_write h howed v }

/-- Room for one byte more. -/
theorem succ_le_of_lt {n dst : BitVec 24} (h : dst < n) : dst + 1 ≤ n := by
  bv_omega

theorem inv_afterLit {d : Byte} (h : InBlock (afterLit b d)) (howed : b.dst < b.n) (hbit : b.bit ≤ 7) :
    (afterLit b d).Inv :=
  inv_of_nextPhase h rfl (succ_le_of_lt howed) (by show b.bit + 1 ≤ 8; bv_omega)

/-- A well-formed back-reference into the bytes produced gives the byte steps what they rest on (R67, R68). -/
theorem inv_afterCopy {clen : BitVec 5} {cdisp : BitVec 13} (h : InBlock (afterCopy b clen cdisp))
    (howed : b.dst < b.n) (hbit : b.bit ≤ 7) (hwf : (Instr.copy clen cdisp).wf = true)
    (hnear : cdisp.toNat ≤ b.dst.toNat) : (afterCopy b clen cdisp).Inv := by
  obtain ⟨⟨hmin, hmax⟩, hdisp, hfar⟩ := wf_copy.1 hwf
  exact inv_of_copy h rfl howed ⟨by show b.bit + 1 ≤ 8; bv_omega, by show 1 ≤ clen; bv_omega,
    by show clen ≤ 18; bv_omega, by show 1 ≤ cdisp; bv_omega, by show cdisp ≤ 4096; bv_omega, hnear⟩

theorem inv_afterCopyByte {v : Byte} (hinv : b.Inv) (hphase : b.phase = .copy) (h : InBlock (afterCopyByte b v)) :
    (afterCopyByte b v).Inv := by
  obtain ⟨-, howed⟩ := inBlock_of_inv hinv (.inr (.inr hphase))
  obtain ⟨-, -, -, hcopy, -⟩ := hinv
  obtain ⟨hbit, hmin, hmax, hdisp, hfar, hnear⟩ := hcopy hphase
  by_cases hend : b.dst + 1 = b.n ∨ b.crem - 1 = 0
  · exact inv_of_nextPhase h (if_pos hend) (succ_le_of_lt howed) hbit
  · obtain ⟨hroom, hmore⟩ := not_or.1 hend
    refine inv_of_copy h (if_neg hend) (by show b.dst + 1 < b.n; bv_omega) ?_
    refine ⟨hbit, by show 1 ≤ b.crem - 1; bv_omega, by show b.crem - 1 ≤ 18; bv_omega, hdisp, hfar, ?_⟩
    show b.cdisp.toNat ≤ (b.dst + 1).toNat
    rw [succ_toNat_of_lt howed]
    omega

/-- Every effect of a step of BD keeps the invariant. -/
theorem inv_of_bdEffect (hinv : s.bd.Inv) (h : BdEffect s t) : t.bd.Inv := by
  cases h with
  | rest => exact hinv
  | hdr n hsel hstands =>
    have hphase := selects_hdr.1 hsel
    obtain ⟨⟨hwf, hloaded, -⟩, -, -, -, -, -, hnoError⟩ := hinv
    exact inv_afterHdr (inBlock_afterHdr hwf hloaded hphase (hnoError (.inr hphase)) hstands)
  | flag f hsel hstands =>
    obtain ⟨hphase, -⟩ := selects_flag.1 hsel
    obtain ⟨hblock, howed⟩ := inBlock_of_inv hinv (.inl hphase)
    exact inv_of_unit (inBlock_afterFlag hblock hphase hstands) rfl howed (show (0 : BitVec 4) ≤ 7 by decide)
  | lit d hsel hstands =>
    obtain ⟨hphase, ⟨howed, hbit⟩, -⟩ := selects_lit.1 hsel
    obtain ⟨hblock, -⟩ := inBlock_of_inv hinv (.inr (.inl hphase))
    exact inv_afterLit (inBlock_afterLit hblock hphase howed hstands) howed hbit
  | copy clen cdisp hsel hstands hnear =>
    obtain ⟨hphase, ⟨howed, hbit⟩, -⟩ := selects_copy.1 hsel
    obtain ⟨hblock, -⟩ := inBlock_of_inv hinv (.inr (.inl hphase))
    exact inv_afterCopy (inBlock_afterCopy hblock hphase hstands) howed hbit hstands.wf hnear
  | copyByte v hcopying =>
    obtain ⟨hphase, -, howed, -⟩ := hcopying
    obtain ⟨hblock, -⟩ := inBlock_of_inv hinv (.inr (.inr hphase))
    exact inv_afterCopyByte hinv hphase (inBlock_afterCopyByte hblock howed v)
  | badTag => exact inv_of_raise hinv _
  | truncated => exact inv_of_raise hinv _
  | corrupt => exact inv_of_raise hinv _

/-! ### A busy BD steps -/

/-- From the invariant a busy BD that is not copying has a unit due. -/
theorem selects_of_inv (hinv : b.Inv) (hbusy : b.status = .busy) (hcopy : b.phase ≠ .copy) :
    ∃ kind, b.selects = some kind := by
  rcases status_eq_busy.1 hbusy with hphase | hphase | hphase | hphase
  · exact ⟨_, selects_hdr.2 hphase⟩
  · obtain ⟨-, howed⟩ := inBlock_of_inv hinv (.inl hphase)
    exact ⟨_, selects_flag.2 ⟨hphase, howed⟩⟩
  · obtain ⟨-, howed⟩ := inBlock_of_inv hinv (.inr (.inl hphase))
    obtain ⟨-, -, hbit, -⟩ := hinv
    cases hflag : flagAt b.flags b.bit.toNat
    · exact ⟨_, selects_lit.2 ⟨hphase, ⟨howed, hbit hphase⟩, hflag⟩⟩
    · exact ⟨_, selects_copy.2 ⟨hphase, ⟨howed, hbit hphase⟩, hflag⟩⟩
  · exact absurd hphase hcopy

/-- From the invariant BD's step answers a next state. -/
theorem bdStep_next_of_inv (hinv : s.bd.Inv) : ∃ t, bdStep s = .next t := by
  by_cases hbusy : s.bd.status = .busy
  · by_cases hphase : s.bd.phase = .copy
    · obtain ⟨-, howed, -, hnear, hproduced⟩ := copyHasRoom_of_inv hinv hphase
      obtain ⟨-, -, -, hcopy, -⟩ := hinv
      obtain ⟨-, hcrem, -, hdisp, -, -⟩ := hcopy hphase
      obtain ⟨v, hv⟩ := Option.isSome_iff_exists.1 (hproduced (s.bd.dst.toNat - s.bd.cdisp.toNat) (by bv_omega))
      exact ⟨_, (bdStep_of_copy hphase).trans (copyByte_of_copying ⟨hphase, hcrem, howed, hnear⟩ hv)⟩
    · obtain ⟨kind, hsel⟩ := selects_of_inv hinv hbusy hphase
      obtain ⟨⟨-, hloaded, -⟩, -⟩ := hinv
      exact bdStep_next_of_loaded hsel hloaded
  · exact ⟨s, bdStep_of_rest hbusy⟩

/-! ### What BD has left to do -/

/-- No more steps than bytes and units still to come: two for every byte owed, and one for each flag byte not yet loaded
(R98). -/
def blockStepsLeft (b : Bd) : Nat :=
  match b.phase with
  | .flag => 2 * (b.n.toNat - b.dst.toNat) + (b.n.toNat - b.dst.toNat + 7) / 8
  | .unit => 2 * (b.n.toNat - b.dst.toNat) + (b.n.toNat - b.dst.toNat + b.bit.toNat - 1) / 8
  | .copy => 2 * (b.n.toNat - b.dst.toNat) - 1 + (b.n.toNat - b.dst.toNat + b.bit.toNat - 2) / 8
  | .idle | .hdr | .done | .err => 0

/-- After sequencing, what is left is at most what the bytes owed and the flag positions left ask for. -/
theorem left_of_nextPhase (hphase : b.phase = nextPhase b.n b.dst b.bit) :
    b.stepsLeft ≤ 3 * (b.n.toNat - b.dst.toNat) ∧
      blockStepsLeft b ≤ 2 * (b.n.toNat - b.dst.toNat) + (b.n.toNat - b.dst.toNat + b.bit.toNat - 1) / 8 := by
  unfold nextPhase at hphase
  split at hphase
  · simp [Bd.stepsLeft, blockStepsLeft, hphase]
  · split at hphase
    · next hbit => simp [Bd.stepsLeft, blockStepsLeft, hphase, hbit]
    · simp [Bd.stepsLeft, blockStepsLeft, hphase]

theorem left_afterHdr (n : BitVec 24) (hphase : b.phase = .hdr) : (afterHdr b n).stepsLeft < b.stepsLeft := by
  have hn := n.isLt
  rw [Bd.stepsLeft, Bd.stepsLeft, hphase]
  by_cases hzero : n = 0
  · have hdone : (afterHdr b n).phase = .done := if_pos hzero
    simp [hdone]
  · have hflag : (afterHdr b n).phase = .flag := if_neg hzero
    rw [hflag]
    show 3 * (n.toNat - 0) < 3 * 2 ^ 24
    omega

theorem left_afterFlag (f : Byte) (hphase : b.phase = .flag) (howed : b.dst.toNat < b.n.toNat) :
    (afterFlag b f).stepsLeft < b.stepsLeft ∧ blockStepsLeft (afterFlag b f) < blockStepsLeft b := by
  have hbit : (0 : BitVec 4).toNat = 0 := rfl
  simp only [Bd.stepsLeft, blockStepsLeft, hphase, afterFlag, hbit]
  omega

theorem left_afterCopy (clen : BitVec 5) (cdisp : BitVec 13) (hphase : b.phase = .unit)
    (howed : b.dst.toNat < b.n.toNat) (hbit : b.bit ≤ 7) :
    (afterCopy b clen cdisp).stepsLeft < b.stepsLeft ∧
      blockStepsLeft (afterCopy b clen cdisp) < blockStepsLeft b := by
  have hnext : (b.bit + 1).toNat = b.bit.toNat + 1 := by bv_omega
  simp only [Bd.stepsLeft, blockStepsLeft, hphase, afterCopy, hnext]
  omega

theorem left_afterLit (d : Byte) (hphase : b.phase = .unit) (howed : b.dst < b.n) (hbit : b.bit ≤ 7) :
    (afterLit b d).stepsLeft < b.stepsLeft ∧ blockStepsLeft (afterLit b d) < blockStepsLeft b := by
  have hleft := left_of_nextPhase (b := afterLit b d) rfl
  have hdst : (afterLit b d).dst.toNat = b.dst.toNat + 1 := succ_toNat_of_lt howed
  have hnext : (afterLit b d).bit.toNat = b.bit.toNat + 1 := by
    show (b.bit + 1).toNat = _
    bv_omega
  have hn : (afterLit b d).n = b.n := rfl
  have howed : b.dst.toNat < b.n.toNat := howed
  rw [hdst, hnext, hn] at hleft
  have hnow : b.stepsLeft = 3 * (b.n.toNat - b.dst.toNat) - 1 ∧ blockStepsLeft b =
      2 * (b.n.toNat - b.dst.toNat) + (b.n.toNat - b.dst.toNat + b.bit.toNat - 1) / 8 := by
    simp [Bd.stepsLeft, blockStepsLeft, hphase]
  omega

theorem left_afterCopyByte (v : Byte) (hphase : b.phase = .copy) (howed : b.dst < b.n) :
    (afterCopyByte b v).stepsLeft < b.stepsLeft ∧
      blockStepsLeft (afterCopyByte b v) < blockStepsLeft b := by
  have hdst : (afterCopyByte b v).dst.toNat = b.dst.toNat + 1 := succ_toNat_of_lt howed
  have hn : (afterCopyByte b v).n = b.n := rfl
  have hbit : (afterCopyByte b v).bit = b.bit := rfl
  have howed : b.dst.toNat < b.n.toNat := howed
  have hnow : b.stepsLeft = 3 * (b.n.toNat - b.dst.toNat) - 2 ∧ blockStepsLeft b =
      2 * (b.n.toNat - b.dst.toNat) - 1 + (b.n.toNat - b.dst.toNat + b.bit.toNat - 2) / 8 := by
    simp [Bd.stepsLeft, blockStepsLeft, hphase]
  by_cases hend : b.dst + 1 = b.n ∨ b.crem - 1 = 0
  · have hleft := left_of_nextPhase (b := afterCopyByte b v) (if_pos hend)
    rw [hdst, hbit, hn] at hleft
    omega
  · have hcopy : (afterCopyByte b v).phase = .copy := if_neg hend
    have hroom : b.dst.toNat + 1 ≠ b.n.toNat := fun e =>
      hend (.inl (BitVec.eq_of_toNat_eq ((succ_toNat_of_lt howed).trans e)))
    simp only [Bd.stepsLeft, blockStepsLeft, hcopy, hdst, hbit, hn] at hnow ⊢
    omega

/-- A busy BD has something left to do: in a block a byte is owed. -/
theorem left_pos_of_busy (hinv : b.Inv) (hbusy : b.status = .busy) :
    0 < b.stepsLeft ∧ (b.Streaming → 0 < blockStepsLeft b) := by
  rcases status_eq_busy.1 hbusy with hphase | hstream
  · refine ⟨?_, by simp [Bd.Streaming, hphase]⟩
    rw [Bd.stepsLeft, hphase]
    exact Nat.mul_pos (by decide) (by decide)
  · have howed : b.dst.toNat < b.n.toNat := (inBlock_of_inv hinv hstream).2
    rcases hstream with hphase | hphase | hphase <;> rw [Bd.stepsLeft, blockStepsLeft, hphase] <;> simp only <;>
      omega

/-- Every effect on a busy BD leaves strictly less to do, by both measures. -/
theorem left_of_bdEffect (hinv : s.bd.Inv) (hbusy : s.bd.status = .busy) (h : BdEffect s t) :
    t.bd.stepsLeft < s.bd.stepsLeft ∧ (s.bd.Streaming → blockStepsLeft t.bd < blockStepsLeft s.bd) := by
  cases h with
  | rest hrest => exact absurd hbusy hrest
  | hdr n hsel =>
    have hphase := selects_hdr.1 hsel
    exact ⟨left_afterHdr n hphase, by simp [Bd.Streaming, hphase]⟩
  | flag f hsel =>
    obtain ⟨hphase, howed⟩ := selects_flag.1 hsel
    exact (left_afterFlag f hphase howed).imp_right fun h _ => h
  | lit d hsel =>
    obtain ⟨hphase, ⟨howed, hbit⟩, -⟩ := selects_lit.1 hsel
    exact (left_afterLit d hphase howed hbit).imp_right fun h _ => h
  | copy clen cdisp hsel =>
    obtain ⟨hphase, ⟨howed, hbit⟩, -⟩ := selects_copy.1 hsel
    exact (left_afterCopy clen cdisp hphase howed hbit).imp_right fun h _ => h
  | copyByte v hcopying =>
    obtain ⟨hphase, -, howed, -⟩ := hcopying
    exact (left_afterCopyByte v hphase howed).imp_right fun h _ => h
  | badTag => exact left_pos_of_busy hinv hbusy
  | truncated => exact left_pos_of_busy hinv hbusy
  | corrupt => exact left_pos_of_busy hinv hbusy

end Sys2Proof.Proofs.BdInvariant
end

section
/-! PROOFS. The invariant of TRD, the legality of the raster's bytes, and with BD's invariant what every step of the machine
keeps; that from the invariant no step faults and no busy engine hangs. -/

namespace Sys2Proof.Proofs.MachineInvariant

open Sys2Proof.Machine Sys2Proof.Proofs.BdSteps Sys2Proof.Proofs.StepFrames Sys2Proof.Proofs.BdInvariant
  Sys2Proof.Proofs.HostMoves Sys2Proof.Proofs.TileRaster

variable {s t : State}

/-! ### The raster's bytes -/

/-- What a pixel lists: a byte other than 0 at one of its four places. -/
theorem mem_putPixel {m : List Host.Cell} {x y : Nat} {px : Pixel} {c : Host.Cell} (h : c ∈ putPixel m x y px) :
    c ∈ m ∨ c.2 ≠ 0 ∧ (c = (rasterAddr x y, px.r) ∨ c = (rasterAddr x y + 1, px.g) ∨
      c = (rasterAddr x y + 2, px.b) ∨ c = (rasterAddr x y + 3, px.a)) := by
  have hlisted : ∀ {a : Nat} {v : Byte}, c = (a, v) → Space.raster.unlisted ≠ some v → c.2 ≠ 0 := by
    rintro a v rfl hne rfl
    exact hne rfl
  rcases mem_memWrite h with h | ⟨hc, hne⟩
  · rcases mem_memWrite h with h | ⟨hc, hne⟩
    · rcases mem_memWrite h with h | ⟨hc, hne⟩
      · rcases mem_memWrite h with h | ⟨hc, hne⟩
        · exact .inl h
        · exact .inr ⟨hlisted hc hne, .inl hc⟩
      · exact .inr ⟨hlisted hc hne, .inr (.inl hc)⟩
    · exact .inr ⟨hlisted hc hne, .inr (.inr (.inl hc))⟩
  · exact .inr ⟨hlisted hc hne, .inr (.inr (.inr hc))⟩

/-- The last tile byte's pixels end at the raster's end (R43, R101). -/
theorem rasterAddr_lt {k x : Nat} (hk : k < 2048) (hx : x = leftColumn k ∨ x = rightColumn k) :
    rasterAddr x (pixelRow k) + 3 < 16384 := by
  rw [rasterAddr_eq, pixelRow_eq]
  rw [rightColumn, leftColumn, tileNumber] at hx
  omega

/-- Putting a pixel inside the raster keeps its extent. -/
theorem putPixel_below {m : List Host.Cell} {x y : Nat} {px : Pixel} (hm : ∀ c ∈ m, c.1 < 16384)
    (haddr : rasterAddr x y + 3 < 16384) : ∀ c ∈ putPixel m x y px, c.1 < 16384 := by
  intro c hc
  rcases mem_putPixel hc with hc | ⟨-, rfl | rfl | rfl | rfl⟩
  · exact hm c hc
  all_goals simp only; omega

/-- Putting the pixels of a tile byte below 2048 keeps the raster's extent. -/
theorem putPair_below {m : List Host.Cell} (hm : ∀ c ∈ m, c.1 < 16384) (pal : Palette) {k : Nat} (hk : k < 2048)
    (hi lo : BitVec 4) : ∀ c ∈ putPair m pal k hi lo, c.1 < 16384 :=
  putPixel_below (putPixel_below hm (rasterAddr_lt hk (.inl rfl))) (rasterAddr_lt hk (.inr rfl))

/-- A converted pixel's colour bytes are multiples of 8, and its alpha is 255 where it is not 0 (R104, R105). -/
theorem rgba_legal (c : BitVec 16) (p : BitVec 4) :
    (rgba c p).r.toNat % 8 = 0 ∧ (rgba c p).g.toNat % 8 = 0 ∧ (rgba c p).b.toNat % 8 = 0 ∧
      ((rgba c p).a ≠ 0 → (rgba c p).a = Config.alphaOpaque) := by
  have hscale : ∀ ch : BitVec 5, (scaleChannel ch).toNat % 8 = 0 := by
    intro ch
    rw [scaleChannel_toNat]
    omega
  refine ⟨hscale _, hscale _, hscale _, fun hne => ?_⟩
  rw [rgba_a] at hne ⊢
  split at hne
  · exact absurd rfl hne
  · next hp => rw [if_neg hp]; rfl

/-- Putting a converted pixel keeps the raster's bytes legal: a pixel begins at a multiple of 4. -/
theorem putPixel_legal {m : List Host.Cell} (hm : RasterLegal m) (x y : Nat) (c : BitVec 16) (p : BitVec 4) :
    RasterLegal (putPixel m x y (rgba c p)) := by
  obtain ⟨hr, hg, hb, ha⟩ := rgba_legal c p
  have haddr : rasterAddr x y % 4 = 0 := by rw [rasterAddr_eq]; omega
  intro cell hcell
  rcases mem_putPixel hcell with hcell | ⟨hne, rfl | rfl | rfl | rfl⟩
  · exact hm cell hcell
  · rwa [if_neg (by simp only; omega)]
  · rwa [if_neg (by simp only; omega)]
  · rwa [if_neg (by simp only; omega)]
  · rw [if_pos (by simp only; omega)]
    exact ha hne

theorem putPair_legal {m : List Host.Cell} (hm : RasterLegal m) (pal : Palette) (k : Nat) (hi lo : BitVec 4) :
    RasterLegal (putPair m pal k hi lo) :=
  putPixel_legal (putPixel_legal hm _ _ _ _) _ _ _ _

/-- A byte read from a legal raster is listed or 0. -/
theorem memRead_raster_legal {m : List Host.Cell} {a : Nat} {v : Byte} (hm : RasterLegal m)
    (h : memRead .raster m a = some v) :
    v = 0 ∨ if a % 4 = 3 then v = Config.alphaOpaque else v.toNat % 8 = 0 := by
  induction m with
  | nil => exact .inl (Option.some.inj h).symm
  | cons c rest ih =>
    rw [memRead_cons] at h
    split at h
    · next haddr =>
      cases h
      exact .inr (haddr ▸ hm c (by simp))
    · exact ih (fun d hd => hm d (by simp [hd])) h

/-! ### TRD's invariant -/

theorem inv_of_launchTrd (bytes : List Byte) (palette : Palette) (s : State) :
    (launchTrd bytes palette s).trd.Inv := by
  obtain ⟨hwf, hraster, hread⟩ := launchTrd_loaded bytes palette s
  obtain ⟨-, -, hk, htlen, -, hphase⟩ := launchTrd_trd bytes palette s
  refine ⟨⟨hwf, fun a ha => ?_⟩, ⟨?_, by simp [hraster]⟩, ?_, ?_⟩
  · rw [htlen] at ha
    simp [hread, ha]
  · rw [hraster]
    exact ⟨.nil, nofun⟩
  · rw [hphase, hk, htlen]
    split
    · nofun
    · next hne => exact fun _ => ⟨by decide, Nat.pos_of_ne_zero hne⟩
  · rw [hphase, hk, htlen]
    split
    · next hzero => simp [hzero]
    · nofun

/-- TRD after the tile byte `v` (R102). -/
def afterTile (t : Trd) (v : Byte) : Trd :=
  { t with
    raster := putPair t.raster t.pal t.k.toNat (v.extractLsb' 4 4) (v.extractLsb' 0 4)
    k := t.k + 1
    tphase := if t.k.toNat + 1 = Config.tileStreamBytes ∨ t.k.toNat + 1 = t.tlen then .tdone else .tbusy }

theorem trdStep_of_tile {v : Byte} (hdecoding : s.trd.decoding)
    (hread : memRead .tile s.trd.tile s.trd.k.toNat = some v) : trdStep s = .next (s.setTrd (afterTile s.trd v)) :=
  (trdStep_of_decoding hdecoding hread).trans (exec_pix2 _ _ hdecoding)

/-- A step of TRD is at rest or takes the tile byte at `k`. -/
theorem trdStep_tile (h : trdStep s = .next t) :
    s.trd.tphase ≠ .tbusy ∧ t = s ∨
      s.trd.decoding ∧ ∃ v, memRead .tile s.trd.tile s.trd.k.toNat = some v ∧ t = s.setTrd (afterTile s.trd v) := by
  refine (trdStep_next h).imp_right fun ⟨hdecoding, v, hread, _⟩ => ⟨hdecoding, v, hread, ?_⟩
  rw [trdStep_of_tile hdecoding hread] at h
  cases h
  rfl

/-- A tile byte moves `k` by one, 12 bits holding it, and ends the decode exactly at the last byte (R31, R107, R108). -/
theorem afterTile_progress {t : Trd} (v : Byte) (h : t.decoding) :
    (afterTile t v).k.toNat = t.k.toNat + 1 ∧
      ((afterTile t v).tphase = .tdone ∧ t.k.toNat + 1 = min t.tlen 2048 ∨
        (afterTile t v).tphase = .tbusy ∧ t.k.toNat + 1 < min t.tlen 2048) := by
  obtain ⟨-, hk, hlen⟩ := h
  have hk : t.k.toNat < 2048 := hk
  refine ⟨BitVec.toNat_add_of_lt (by simp; omega), ?_⟩
  by_cases hend : t.k.toNat + 1 = 2048 ∨ t.k.toNat + 1 = t.tlen
  · exact .inl ⟨if_pos hend, by omega⟩
  · exact .inr ⟨if_neg hend, by omega⟩

/-- A step of TRD keeps its invariant. -/
theorem inv_of_trdStep (hinv : s.trd.Inv) (h : trdStep s = .next t) : t.trd.Inv := by
  rcases trdStep_tile h with ⟨-, rfl⟩ | ⟨hdecoding, v, -, rfl⟩
  · exact hinv
  · obtain ⟨htile, ⟨hwf, hbelow⟩, -, -⟩ := hinv
    have hk : s.trd.k.toNat < 2048 := hdecoding.2.1
    obtain ⟨hnext, hphase⟩ := afterTile_progress v hdecoding
    refine ⟨htile, ⟨putPair_wf hwf _ _ _ _, putPair_below hbelow _ hk _ _⟩, ?_⟩
    rw [State.setTrd_trd, hnext]
    rcases hphase with ⟨hphase, hend⟩ | ⟨hphase, hmore⟩ <;> rw [hphase]
    · exact ⟨nofun, fun _ => hend⟩
    · exact ⟨fun _ => (lt_min_iff.1 hmore).symm, nofun⟩

/-- A step of TRD keeps the raster's bytes legal. -/
theorem legal_of_trdStep (hlegal : RasterLegal s.trd.raster) (h : trdStep s = .next t) :
    RasterLegal t.trd.raster := by
  rcases trdStep_tile h with ⟨-, rfl⟩ | ⟨-, v, -, rfl⟩
  · exact hlegal
  · exact putPair_legal hlegal _ _ _ _

/-! ### Every step of the machine -/

/-- Settles O46: the reset state, evaluated. -/
theorem resetMeetsTheInvariant : Obligations.ResetMeetsTheInvariant := by
  refine ⟨⟨?_, ?_⟩, ?_⟩ <;> decide

/-- What a host action can make of each engine: what it was, a launch of it, or its reset state. -/
theorem engines_of_hostAct {a : HostAction} (h : hostAct a s = .next t) :
    (t.bd = s.bd ∨ t.bd = Bd.reset ∨ ∃ bytes offset, bytes.length < Config.lenBound ∧
        t.bd = (launchBd bytes offset s).bd) ∧
      (t.trd = s.trd ∨ t.trd = Trd.reset ∨ ∃ bytes palette, t.trd = (launchTrd bytes palette s).trd) := by
  rcases hostAct_next h with ⟨bytes, offset, -, -, hlen, rfl⟩ | ⟨bytes, palette, -, -, rfl⟩ |
    ⟨g, p, -, rfl | ⟨-, bytes, palette, rfl⟩⟩ | ⟨-, hs, rfl⟩ | ⟨c, p, -, cv, rfl⟩ | ⟨-, rfl⟩
  · exact ⟨.inr (.inr ⟨bytes, offset, hlen, rfl⟩), .inl rfl⟩
  · exact ⟨.inl rfl, .inr (.inr ⟨bytes, palette, rfl⟩)⟩
  · exact ⟨.inl rfl, .inl rfl⟩
  · exact ⟨.inl rfl, .inr (.inr ⟨bytes, palette, rfl⟩)⟩
  · exact ⟨.inl rfl, .inl rfl⟩
  · exact ⟨.inl rfl, .inl rfl⟩
  · exact ⟨.inr (.inl rfl), .inr (.inl rfl)⟩

theorem inv_of_hostAct {a : HostAction} (hinv : s.Inv) (h : hostAct a s = .next t) : t.Inv := by
  obtain ⟨hbd, htrd⟩ := engines_of_hostAct h
  obtain ⟨⟨hreset, hresetTrd⟩, -⟩ := resetMeetsTheInvariant
  refine ⟨?_, ?_⟩
  · rcases hbd with hbd | hbd | ⟨bytes, offset, hlen, hbd⟩ <;> rw [hbd]
    · exact hinv.1
    · exact hreset
    · exact inv_of_launchBd hinv.1 offset hlen
  · rcases htrd with htrd | htrd | ⟨bytes, palette, htrd⟩ <;> rw [htrd]
    · exact hinv.2
    · exact hresetTrd
    · exact inv_of_launchTrd bytes palette s

/-- Settles O47: a host action, a step of either engine, or a wait that is over. -/
theorem stepKeepsTheInvariant : Obligations.StepKeepsTheInvariant := by
  intro s t hinv hstep
  rcases step_next hstep with ⟨a, rest, -, h⟩ | ⟨ms, h⟩ | ⟨ms, h⟩ | ⟨ms, rfl⟩
  · exact inv_of_hostAct (s := s.setAgenda rest) hinv h
  · obtain ⟨-, -, -, htrd, -⟩ := bdStep_frame h
    exact ⟨inv_of_bdEffect (s := s.setAgenda ms) hinv.1 (bdEffect_of_bdStep h), htrd ▸ hinv.2⟩
  · obtain ⟨-, -, -, hbd, -⟩ := trdStep_frame h
    exact ⟨hbd ▸ hinv.1, inv_of_trdStep (s := s.setAgenda ms) hinv.2 h⟩
  · exact hinv

/-- A step of the machine keeps the raster's bytes legal: launches and the reset clear it, and only TRD's step writes it. -/
theorem legal_of_step (hlegal : RasterLegal s.trd.raster) (hstep : step s = .next t) :
    RasterLegal t.trd.raster := by
  rcases step_next hstep with ⟨a, rest, -, h⟩ | ⟨ms, h⟩ | ⟨ms, h⟩ | ⟨ms, rfl⟩
  · obtain ⟨-, htrd | htrd | ⟨bytes, palette, htrd⟩⟩ := engines_of_hostAct h <;> rw [htrd]
    · exact hlegal
    · exact nofun
    · exact nofun
  · obtain ⟨-, -, -, htrd, -⟩ := bdStep_frame h
    rw [htrd]
    exact hlegal
  · exact legal_of_trdStep (s := s.setAgenda ms) hlegal h
  · exact hlegal

/-- Settles O48: a legal raster reads 0 where nothing is listed, and a byte that is a multiple of 8 is at most 248. -/
theorem stepKeepsRasterBytesLegal : Obligations.StepKeepsRasterBytesLegal := by
  refine ⟨fun s t hlegal hstep => legal_of_step hlegal hstep, fun m a v hlegal hread => ⟨fun ha => ?_, fun ha => ?_⟩⟩
  · have h := memRead_raster_legal hlegal hread
    rwa [if_pos ha] at h
  · rcases memRead_raster_legal hlegal hread with rfl | hv
    · decide
    · rw [if_neg ha] at hv
      exact ⟨hv, by omega⟩

/-! ### No fault, no hang -/

/-- From the invariant TRD's step answers a next state. -/
theorem trdStep_next_of_inv (hinv : s.trd.Inv) : ∃ t, trdStep s = .next t := by
  by_cases hbusy : s.trd.tphase = .tbusy
  · obtain ⟨⟨-, hloaded⟩, -, hk, -⟩ := hinv
    obtain ⟨hbelow, hlen⟩ := hk hbusy
    obtain ⟨v, hv⟩ := Option.isSome_iff_exists.1 (hloaded s.trd.k.toNat hlen)
    exact ⟨_, trdStep_of_tile ⟨hbusy, hbelow, hlen⟩ hv⟩
  · exact ⟨s, trdStep_of_rest hbusy⟩

/-- What an outcome of a step is, whatever it is. -/
theorem step_cases (s : State) :
    (∃ a rest, step s = hostAct a (s.setAgenda rest)) ∨ (∃ ms, step s = bdStep (s.setAgenda ms)) ∨
      (∃ ms, step s = trdStep (s.setAgenda ms)) ∨ ∃ ms, step s = .next (s.setAgenda ms) := by
  cases hagenda : s.agenda with
  | nil =>
    rw [step_of_free hagenda]
    split
    · exact .inr (.inl ⟨s.agenda, rfl⟩)
    · exact .inr (.inr (.inl ⟨s.agenda, rfl⟩))
  | cons m rest =>
    cases m with
    | host a => exact .inl ⟨a, rest, step_of_host hagenda⟩
    | bd => exact .inr (.inl ⟨rest, step_of_bd hagenda⟩)
    | trd => exact .inr (.inr (.inl ⟨rest, step_of_trd hagenda⟩))
    | awaitBd =>
      rw [step_of_awaitBd hagenda]
      split
      · exact .inr (.inl ⟨s.agenda, rfl⟩)
      · exact .inr (.inr (.inr ⟨rest, rfl⟩))
    | awaitTrd =>
      rw [step_of_awaitTrd hagenda]
      split
      · exact .inr (.inr (.inl ⟨s.agenda, rfl⟩))
      · exact .inr (.inr (.inr ⟨rest, rfl⟩))

/-- The host's actions do not fault. -/
theorem hostAct_ne_fault (a : HostAction) (s : State) (f : Fault) : hostAct a s ≠ .fault f := by
  cases a with
  | start bytes offset =>
    rw [hostAct, hostStart]
    split
    · nofun
    · split <;> nofun
  | tstart bytes palette =>
    rw [hostAct, hostTstart]
    split <;> nofun
  | takeBd =>
    rw [hostAct, hostTakeBd]
    split <;> nofun
  | takeTrd =>
    rw [hostAct, hostTakeTrd]
    split <;> nofun
  | tstartSprite g p =>
    rw [hostAct, hostTstartSprite]
    split
    · unfold launchSprite
      split
      · split
        · nofun
        · rw [hostTstart]
          split <;> nofun
      all_goals nofun
    all_goals nofun
  | convert c p => exact nofun
  | reset => exact nofun

/-- Settles O49: from the invariant either engine's step answers a next state, and the host's actions do not fault. -/
theorem invariantExcludesFaults : Obligations.InvariantExcludesFaults := by
  intro s hinv f hfault
  rcases step_cases s with ⟨a, rest, hstep⟩ | ⟨ms, hstep⟩ | ⟨ms, hstep⟩ | ⟨ms, hstep⟩
  · exact hostAct_ne_fault a _ f (hstep.symm.trans hfault)
  · obtain ⟨t, h⟩ := bdStep_next_of_inv (s := s.setAgenda ms) hinv.1
    rw [hstep, h] at hfault
    cases hfault
  · obtain ⟨t, h⟩ := trdStep_next_of_inv (s := s.setAgenda ms) hinv.2
    rw [hstep, h] at hfault
    cases hfault
  · rw [hstep] at hfault
    cases hfault

/-- A step of TRD while it decodes leaves one tile byte less. -/
theorem trd_stepsLeft_of_busy (hbusy : s.trd.tphase = .tbusy) (h : trdStep s = .next t) :
    t.trd.stepsLeft + 1 = s.trd.stepsLeft := by
  rcases trdStep_tile h with ⟨hrest, -⟩ | ⟨hdecoding, v, -, rfl⟩
  · exact absurd hbusy hrest
  · obtain ⟨hnext, hphase⟩ := afterTile_progress v hdecoding
    have htlen : (afterTile s.trd v).tlen = s.trd.tlen := rfl
    rw [State.setTrd_trd, Trd.stepsLeft, Trd.stepsLeft, hbusy]
    rcases hphase with ⟨hphase, hend⟩ | ⟨hphase, hmore⟩ <;>
      simp only [hphase, hnext, htlen, Config.tileStreamBytes] <;> omega

/-- Settles O50: each engine has a measure that its step from the invariant lowers. -/
theorem enginesNeverHang : Obligations.EnginesNeverHang := by
  intro s hinv
  refine ⟨fun hbusy => ?_, fun hbusy => ?_, bdStep_of_rest, trdStep_of_rest⟩
  · obtain ⟨t, h⟩ := bdStep_next_of_inv hinv.1
    exact ⟨t, h, (left_of_bdEffect hinv.1 hbusy (bdEffect_of_bdStep h)).1⟩
  · obtain ⟨t, h⟩ := trdStep_next_of_inv hinv.2
    exact ⟨t, h, by have := trd_stepsLeft_of_busy hbusy h; omega⟩

end Sys2Proof.Proofs.MachineInvariant
end

section
/-! PROOFS. Every pixel of the decoded raster: the traversal inverted, and a run of tile bytes seen from one pixel. -/

namespace Sys2Proof.Proofs.DecodedPixels

open Sys2Proof.Machine Sys2Proof.Proofs.TileRaster Sys2Proof.Proofs.StepFrames

/-! ### The traversal inverted -/

/-- The tile byte whose pair holds the pixel at column `x`, row `y` (R101 inverted). -/
def tileByteOf (x y : Nat) : Nat := (y / 8 * 8 + x / 8) * 32 + y % 8 * 4 + x % 8 / 2

theorem tileByteOf_lt {x y : Nat} (hx : x < 64) (hy : y < 64) : tileByteOf x y < 2048 := by
  rw [tileByteOf]
  omega

/-- The pixel stands in the row of its tile byte, on the side its parity says. -/
theorem pixel_of_tileByteOf {x : Nat} (y : Nat) (hx : x < 64) :
    pixelRow (tileByteOf x y) = y ∧
      (x % 2 = 0 ∧ x = leftColumn (tileByteOf x y) ∨ x % 2 = 1 ∧ x = rightColumn (tileByteOf x y)) := by
  rw [pixelRow_eq, rightColumn, leftColumn, tileNumber, tileByteOf]
  omega

/-- Left columns are even and leave room for the right one. -/
theorem leftColumn_bounds (k : Nat) : leftColumn k ≤ 62 ∧ leftColumn k % 2 = 0 := by
  rw [leftColumn, tileNumber]
  omega

/-- The pixels of a tile byte are its own. -/
theorem tileByteOf_pixel {k x : Nat} (hx : x = leftColumn k ∨ x = rightColumn k) :
    tileByteOf x (pixelRow k) = k := by
  rw [rightColumn, leftColumn, tileNumber] at hx
  rw [pixelRow_eq, tileByteOf]
  omega

/-- No other tile byte's pair holds a byte of the pixel. -/
theorem outside_of_ne_tileByteOf {x y k j : Nat} (hx : x < 64) (hj : j < 4) (hne : k ≠ tileByteOf x y) :
    rasterAddr x y + j < rasterAddr (leftColumn k) (pixelRow k) ∨
      rasterAddr (leftColumn k) (pixelRow k) + 8 ≤ rasterAddr x y + j := by
  by_contra hinside
  obtain ⟨hleft, -⟩ := leftColumn_bounds k
  rw [rasterAddr_eq, rasterAddr_eq] at hinside
  have hrow : y = pixelRow k := by omega
  have hcolumn : x = leftColumn k ∨ x = rightColumn k := by rw [rightColumn]; omega
  exact hne (hrow ▸ (tileByteOf_pixel hcolumn).symm)

/-! ### A run of tile bytes seen from one pixel -/

/-- The index a tile byte gives the pixel in column `x` (R76, R103). -/
def indexOf (v : Byte) (x : Nat) : BitVec 4 := if x % 2 = 0 then v.extractLsb' 0 4 else v.extractLsb' 4 4

/-- The four bytes of a pixel stand in a raster. -/
def PixelIs (m : List Host.Cell) (x y : Nat) (px : Pixel) : Prop :=
  memRead .raster m (rasterAddr x y) = some px.r ∧ memRead .raster m (rasterAddr x y + 1) = some px.g ∧
    memRead .raster m (rasterAddr x y + 2) = some px.b ∧ memRead .raster m (rasterAddr x y + 3) = some px.a

/-- The pixel's own tile byte puts it. -/
theorem pixelIs_putPair {m : List Host.Cell} (hw : MemWf .raster m) (pal : Palette) {x : Nat} (y : Nat) (v : Byte)
    (hx : x < 64) :
    PixelIs (putPair m pal (tileByteOf x y) (v.extractLsb' 4 4) (v.extractLsb' 0 4)) x y
      (rgba (palAt pal (indexOf v x)) (indexOf v x)) := by
  obtain ⟨hrow, hside⟩ := pixel_of_tileByteOf y hx
  have hpair := memRead_putPair hw pal (k := tileByteOf x y) (x := x) (hi := v.extractLsb' 4 4)
    (lo := v.extractLsb' 0 4) (p := indexOf v x)
    (hside.imp (fun h => ⟨if_pos h.1, h.2⟩) fun h => ⟨if_neg (by omega), h.2⟩)
  rwa [hrow] at hpair

/-- Tile bytes after the pixel's own leave it alone, and so do those that do not reach it. -/
theorem paintTiles_of_not_reached (pal : Palette) {x y j : Nat} (hx : x < 64) (hj : j < 4) {bytes : List Byte}
    {k : Nat} {m : List Host.Cell} (hnot : tileByteOf x y < k ∨ k + bytes.length ≤ tileByteOf x y) :
    memRead .raster (paintTiles pal k bytes m) (rasterAddr x y + j) =
      memRead .raster m (rasterAddr x y + j) := by
  induction bytes generalizing k m with
  | nil => rfl
  | cons v rest ih =>
    rw [List.length_cons] at hnot
    rw [paintTiles]
    split
    · rw [ih (by omega)]
      exact memRead_putPair_of_outside _ _ _ _ (outside_of_ne_tileByteOf hx hj (by omega))
    · rfl

/-- A run of tile bytes that reaches the pixel's own puts the pixel. -/
theorem pixelIs_paintTiles (pal : Palette) {x y : Nat} (hx : x < 64) (hy : y < 64) {bytes : List Byte} {v : Byte}
    {k i : Nat} {m : List Host.Cell} (hw : MemWf .raster m) (hv : bytes[i]? = some v)
    (hk : k + i = tileByteOf x y) :
    PixelIs (paintTiles pal k bytes m) x y (rgba (palAt pal (indexOf v x)) (indexOf v x)) := by
  induction bytes generalizing k i m with
  | nil => cases hv
  | cons w rest ih =>
    have hlt : k < Config.tileStreamBytes := by
      have := tileByteOf_lt hx hy
      show k < 2048
      omega
    rw [paintTiles, if_pos hlt]
    cases i with
    | zero =>
      cases hv
      obtain ⟨hr, hg, hb, ha⟩ := pixelIs_putPair hw pal y v hx
      have hk : k = tileByteOf x y := hk
      have hpast : tileByteOf x y < k + 1 ∨ k + 1 + rest.length ≤ tileByteOf x y := .inl (by omega)
      rw [← hk] at hr hg hb ha
      exact ⟨(paintTiles_of_not_reached pal (j := 0) hx (by decide) hpast).trans hr,
        (paintTiles_of_not_reached pal hx (by decide) hpast).trans hg,
        (paintTiles_of_not_reached pal hx (by decide) hpast).trans hb,
        (paintTiles_of_not_reached pal hx (by decide) hpast).trans ha⟩
    | succ i => exact ih (putPair_wf hw _ _ _ _) hv (by omega)

/-- Settles O41: the tile byte of the pixel is found by inverting the traversal; where it is missing nothing is put over
the zero raster. -/
theorem decodedPixelsStandWhereTheTraversalPutsThem :
    Obligations.DecodedPixelsStandWhereTheTraversalPutsThem := by
  intro bytes pal x y hx hy
  refine ⟨fun hnone j hj => ?_, fun v hv => ?_⟩
  · have hshort : 0 + bytes.length ≤ tileByteOf x y := by
      rw [Nat.zero_add]
      exact List.getElem?_eq_none_iff.1 hnone
    exact paintTiles_of_not_reached pal hx hj (.inr hshort)
  · exact pixelIs_paintTiles pal hx hy ⟨.nil, nofun⟩ hv (Nat.zero_add _)

end Sys2Proof.Proofs.DecodedPixels
end

section
/-! PROOFS. A back-reference, overlapping itself or not, repeats the pattern of the bytes before it: by induction on its
byte steps, each read from the bytes already produced. -/

namespace Sys2Proof.Proofs.OverlappingCopy

open Sys2Proof.Machine Sys2Proof.Proofs.StreamUnits

variable {s : State}

/-- One byte step of a copy with room, with the byte it writes; while room and length are left it leaves a copy with room. -/
theorem bdStep_copies_one (h : CopyHasRoom s.bd) (hcrem : 1 ≤ s.bd.crem.toNat) :
    ∃ t, bdStep s = .next t ∧ t.bd.n = s.bd.n ∧ t.bd.cdisp = s.bd.cdisp ∧
      t.bd.dst.toNat = s.bd.dst.toNat + 1 ∧ t.bd.crem.toNat = s.bd.crem.toNat - 1 ∧
      memRead .out t.bd.out s.bd.dst.toNat = memRead .out s.bd.out (s.bd.dst.toNat - s.bd.cdisp.toNat) ∧
      (∀ a, a ≠ s.bd.dst.toNat → memRead .out t.bd.out a = memRead .out s.bd.out a) ∧
      (s.bd.dst.toNat + 1 < s.bd.n.toNat → 2 ≤ s.bd.crem.toNat → CopyHasRoom t.bd) := by
  obtain ⟨hphase, howed, hmin, hdisp, hproduced⟩ := id h
  obtain ⟨v, hv⟩ := Option.isSome_iff_exists.1 (hproduced (s.bd.dst.toNat - s.bd.cdisp.toNat) (by omega))
  obtain ⟨t, hstep, hself, hother, hbd, -⟩ :=
    copyByteStepCopiesOneByte s v hphase (by bv_omega) howed hdisp hv
  have hn : t.bd.n = s.bd.n := by rw [hbd]
  have hdst : t.bd.dst.toNat = s.bd.dst.toNat + 1 := by rw [hbd]; bv_omega
  have hcrem' : t.bd.crem.toNat = s.bd.crem.toNat - 1 := by rw [hbd]; bv_omega
  refine ⟨t, hstep, hn, by rw [hbd], hdst, hcrem', hself.trans hv.symm, hother, fun hroom hmore => ?_⟩
  obtain ⟨u, hstep', -, -, -, -, -, hstays⟩ := bdStep_of_copyHasRoom h hmore
  rw [hstep] at hstep'
  cases hstep'
  exact hstays fun hfull => by rw [hfull, hn] at hdst; omega

/-- The place in the pattern that the byte `j` steps on comes from: one further, or back to the start. -/
theorem pattern_succ {d : Nat} (hd : 1 ≤ d) (j : Nat) :
    j % d + 1 = d ∧ (j + 1) % d = 0 ∨ j % d + 1 < d ∧ (j + 1) % d = j % d + 1 := by
  have hlt : j % d < d := Nat.mod_lt j hd
  rw [← Nat.mod_add_mod]
  by_cases hlast : j % d + 1 = d
  · exact .inl ⟨hlast, by rw [hlast, Nat.mod_self]⟩
  · have hnext : j % d + 1 < d := by omega
    exact .inr ⟨hnext, Nat.mod_eq_of_lt hnext⟩

/-- The byte steps of a copy with room repeat the pattern of the last `cdisp` bytes (R93). -/
theorem bdRun_repeats_pattern (m : Nat) (h : m ≠ 0 → CopyHasRoom s.bd) (hcrem : m ≤ s.bd.crem.toNat)
    (hroom : s.bd.dst.toNat + m ≤ s.bd.n.toNat) :
    ∃ t, bdRun m s = .next t ∧ t.bd.dst.toNat = s.bd.dst.toNat + m ∧
      (∀ j < m, memRead .out t.bd.out (s.bd.dst.toNat + j) =
        memRead .out s.bd.out (s.bd.dst.toNat - s.bd.cdisp.toNat + j % s.bd.cdisp.toNat)) ∧
      (∀ a, a < s.bd.dst.toNat ∨ s.bd.dst.toNat + m ≤ a →
        memRead .out t.bd.out a = memRead .out s.bd.out a) := by
  induction m generalizing s with
  | zero => exact ⟨s, rfl, rfl, nofun, fun _ _ => rfl⟩
  | succ m ih =>
    have hcopy := h (Nat.succ_ne_zero m)
    obtain ⟨u, hstep, hn, hcdisp, hdst, hcrem', hself, hother, hmore⟩ := bdStep_copies_one hcopy (by omega)
    obtain ⟨t, hrun, htdst, hpattern, hframe⟩ :=
      ih (s := u) (fun hm => hmore (by omega) (by omega)) (by omega) (by rw [hn]; omega)
    have hmin := hcopy.one_le_cdisp
    have hdisp := hcopy.cdisp_le_dst
    refine ⟨t, (bdRun_succ m hstep).trans hrun, by omega, fun j hj => ?_, fun a ha => ?_⟩
    · cases j with
      | zero => rw [hframe _ (.inl (by omega)), Nat.add_zero, hself, Nat.zero_mod, Nat.add_zero]
      | succ j =>
        have hrest := hpattern j (by omega)
        rw [hdst, hcdisp] at hrest
        rw [show s.bd.dst.toNat + (j + 1) = s.bd.dst.toNat + 1 + j by omega, hrest]
        rcases pattern_succ hmin j with ⟨hlast, hwrap⟩ | ⟨hlt, hnext⟩
        · rw [hwrap, show s.bd.dst.toNat + 1 - s.bd.cdisp.toNat + j % s.bd.cdisp.toNat = s.bd.dst.toNat by omega,
            hself, Nat.add_zero]
        · rw [hnext, hother _ (by omega)]
          congr 1
          omega
    · rw [hframe a (by omega), hother a (by omega)]

/-- Settles O26: the invariant gives the copy its room. -/
theorem overlappingCopyRepeatsThePattern : Obligations.OverlappingCopyRepeatsThePattern := by
  intro s m hinv hphase hcrem hroom
  exact bdRun_repeats_pattern m (fun _ => copyHasRoom_of_inv hinv hphase) hcrem hroom

end Sys2Proof.Proofs.OverlappingCopy
end

section
/-! PROOFS. Runs: steps chained, a run to the end of a measure, and the step bound of a block. -/

namespace Sys2Proof.Proofs.Runs

open Sys2Proof.Machine Sys2Proof.Proofs.BdSteps Sys2Proof.Proofs.BdInvariant

variable {f : State → Host.Outcome State Fault Refusal} {k l : Nat} {s t u : State}

/-- `k` steps of `f` lead from one state to another. -/
inductive Steps (f : State → Host.Outcome State Fault Refusal) : Nat → State → State → Prop where
  | refl (s : State) : Steps f 0 s s
  | cons {k : Nat} {s u t : State} (h : f s = .next u) (hrest : Steps f k u t) : Steps f (k + 1) s t

theorem Steps.one (h : f s = .next t) : Steps f 1 s t := .cons h (.refl t)

theorem Steps.trans (h : Steps f k s t) (h' : Steps f l t u) : Steps f (l + k) s u := by
  induction h with
  | refl => exact h'
  | cons hstep _ ih => exact .cons hstep (ih h')

theorem run_of_steps (h : Steps step k s t) : run k s = .next t := by
  induction h with
  | refl => rfl
  | cons hstep _ ih => rw [run, hstep]; exact ih

theorem bdRun_of_steps (h : Steps bdStep k s t) : bdRun k s = .next t := by
  induction h with
  | refl => rfl
  | cons hstep _ ih => rw [bdRun, hstep]; exact ih

/-- Where each busy step keeps a predicate and lowers a measure, the run stops being busy within the measure. -/
theorem exists_steps_within {P busy : State → Prop} {μ : State → Nat}
    (hstep : ∀ s, P s → busy s → ∃ t, f s = .next t ∧ P t ∧ μ t < μ s) (hs : P s) :
    ∃ k ≤ μ s, ∃ t, Steps f k s t ∧ P t ∧ ¬ busy t := by
  induction hm : μ s using Nat.strong_induction_on generalizing s with
  | _ m ih =>
    by_cases hbusy : busy s
    · obtain ⟨u, hu, hP, hless⟩ := hstep s hs hbusy
      obtain ⟨k, hk, t, hsteps, ht⟩ := ih (μ u) (hm ▸ hless) hP rfl
      exact ⟨k + 1, by omega, t, .cons hu hsteps, ht⟩
    · exact ⟨0, Nat.zero_le _, s, .refl s, hs, hbusy⟩

/-- Where each step lowers the measure by one, the run takes exactly as many steps as it says. -/
theorem exists_steps_exactly {P : State → Prop} {μ : State → Nat}
    (hstep : ∀ s, P s → μ s ≠ 0 → ∃ t, f s = .next t ∧ P t ∧ μ t + 1 = μ s) (hs : P s) :
    ∃ t, Steps f (μ s) s t ∧ P t ∧ μ t = 0 := by
  induction hm : μ s generalizing s with
  | zero => exact ⟨s, .refl s, hs, hm⟩
  | succ m ih =>
    obtain ⟨u, hu, hP, hless⟩ := hstep s hs (by omega)
    obtain ⟨t, hsteps, ht⟩ := ih hP (by omega)
    exact ⟨t, .cons hu hsteps, ht⟩

/-! ### The step bound of a block -/

/-- A block stays past its header until it is done or has failed. -/
def PastHeader (b : Bd) : Prop := b.Streaming ∨ b.phase = .done ∨ b.phase = .err

theorem pastHeader_of_nextPhase {b : Bd} {n dst : BitVec 24} {bit : BitVec 4} (h : b.phase = nextPhase n dst bit) :
    PastHeader b := by
  unfold nextPhase at h
  split at h
  · exact .inr (.inl h)
  · split at h
    · exact .inl (.inl h)
    · exact .inl (.inr (.inl h))

theorem pastHeader_afterHdr (b : Bd) (n : BitVec 24) : PastHeader (afterHdr b n) := by
  by_cases hzero : n = 0
  · exact .inr (.inl (if_pos hzero))
  · exact .inl (.inl (if_neg hzero))

theorem phase_ne_hdr_of_pastHeader {b : Bd} (h : PastHeader b) : b.phase ≠ .hdr := by
  intro hphase
  simp [PastHeader, Bd.Streaming, hphase] at h

theorem pastHeader_of_bdEffect (hpast : PastHeader s.bd) (h : BdEffect s t) : PastHeader t.bd := by
  cases h with
  | rest => exact hpast
  | hdr n => exact pastHeader_afterHdr _ n
  | flag => exact .inl (.inr (.inl rfl))
  | lit d => exact pastHeader_of_nextPhase rfl
  | copy => exact .inl (.inr (.inr rfl))
  | copyByte v =>
    by_cases hend : s.bd.dst + 1 = s.bd.n ∨ s.bd.crem - 1 = 0
    · exact pastHeader_of_nextPhase (if_pos hend)
    · exact .inl (.inr (.inr (if_neg hend)))
  | badTag => exact .inr (.inr rfl)
  | truncated => exact .inr (.inr rfl)
  | corrupt => exact .inr (.inr rfl)

/-- Settles O51: the measure of bytes and flag bytes still to come is lowered by every step, and is the bound at the
first flag byte. -/
theorem blockEndsWithinTheStepBound : Obligations.BlockEndsWithinTheStepBound := by
  intro s hinv hphase hzero
  have hstep : ∀ s : State, s.bd.Inv ∧ PastHeader s.bd → s.bd.Streaming →
      ∃ t, bdStep s = .next t ∧ (t.bd.Inv ∧ PastHeader t.bd) ∧ blockStepsLeft t.bd < blockStepsLeft s.bd := by
    rintro s ⟨hinv, hpast⟩ hstream
    obtain ⟨t, h⟩ := bdStep_next_of_inv hinv
    have heffect := bdEffect_of_bdStep h
    have hbusy : s.bd.status = .busy := status_eq_busy.2 (.inr hstream)
    exact ⟨t, h, ⟨inv_of_bdEffect hinv heffect, pastHeader_of_bdEffect hpast heffect⟩,
      (left_of_bdEffect hinv hbusy heffect).2 hstream⟩
  obtain ⟨k, hk, t, hsteps, ⟨-, hpast⟩, hstop⟩ :=
    exists_steps_within (μ := fun s => blockStepsLeft s.bd) hstep ⟨hinv.1, .inl (.inl hphase)⟩
  have hbound : blockStepsLeft s.bd = 2 * s.bd.n.toNat + (s.bd.n.toNat + 7) / 8 := by
    rw [blockStepsLeft, hphase, hzero]
    rfl
  refine ⟨k, by omega, t, bdRun_of_steps hsteps, ?_⟩
  rcases hpast.resolve_left hstop with hdone | herr
  · exact .inl (by rw [Bd.status, hdone]; rfl)
  · exact .inr (by rw [Bd.status, herr]; rfl)

end Sys2Proof.Proofs.Runs
end

section
/-! PROOFS. BD's run answers what `decompress` gives: a relation between BD and the response still to come, kept by every
step, whose meaning at rest is the response. -/

namespace Sys2Proof.Proofs.Decompression

open Sys2Proof.Machine Sys2Proof.Proofs.HostMoves Sys2Proof.Proofs.StreamUnits Sys2Proof.Proofs.UnitEncoding
  Sys2Proof.Proofs.HeaderAndCopyWord Sys2Proof.Proofs.BdSteps Sys2Proof.Proofs.HeaderAndFailures
  Sys2Proof.Proofs.StepFrames Sys2Proof.Proofs.BdInvariant Sys2Proof.Proofs.Runs

variable {s t : State} {b : Bd} {bytes : List Byte} {r : BdResponse}

/-! ### IN and OUT as byte lists -/

/-- IN is these bytes, `LEN` their number. -/
structure ReadsIn (b : Bd) (bytes : List Byte) : Prop where
  wf : MemWf .input b.input
  len : b.len.toNat = bytes.length
  reads : ∀ a, memRead .input b.input a = bytes[a]?

theorem loaded_of_readsIn (h : ReadsIn b bytes) : Loaded .input b.input b.len.toNat := by
  intro a ha
  rw [h.len] at ha
  simp [h.reads, ha]

/-- A unit that stands at the cursor begins what is left of the stream. -/
theorem drop_of_stands {i : Instr} (hin : ReadsIn b bytes) (h : Stands b i) :
    bytes.drop b.cursor = encode i ++ bytes.drop (b.cursor + i.kind.size) := by
  apply List.ext_getElem?
  intro j
  rw [List.getElem?_drop]
  by_cases hj : j < i.kind.size
  · rw [List.getElem?_append_left (by rwa [encode_length]), ← h.reads j hj, hin.reads]
  · rw [List.getElem?_append_right (by rw [encode_length]; omega), List.getElem?_drop, encode_length]
    congr 1
    omega

/-- The bytes produced so far. -/
def produced (b : Bd) : List Byte := b.out.map Prod.snd

/-- Cells listed in a row are a buffer laid out. -/
theorem eq_memOfBytes {m : List Host.Cell} {a : Nat} (h : m.map Prod.fst = List.range' a m.length) :
    m = memOfBytes a (m.map Prod.snd) := by
  induction m generalizing a with
  | nil => rfl
  | cons c rest ih =>
    rw [List.map_cons, List.length_cons, List.range'_succ] at h
    obtain ⟨hfst, hrest⟩ := List.cons.inj h
    rw [List.map_cons, memOfBytes, ← ih hrest, ← hfst]

theorem length_produced (h : InBlock b) : (produced b).length = b.dst.toNat := by
  rw [produced, List.length_map, ← List.length_map (f := Prod.fst), h.written, List.length_range]

/-- OUT reads as the bytes produced (R37 I3). -/
theorem memRead_out (h : InBlock b) (a : Nat) : memRead .out b.out a = (produced b)[a]? := by
  have hlen : b.out.length = b.dst.toNat := by
    rw [← length_produced h, produced, List.length_map]
  have hrow : b.out.map Prod.fst = List.range' 0 b.out.length := by
    rw [hlen, ← List.range_eq_range']
    exact h.written
  have hread := memRead_memOfBytes (sp := .out) rfl 0 (produced b) a
  rwa [produced, ← eq_memOfBytes hrow, Nat.zero_add] at hread

/-- A byte written at `dst` is put at the end of the bytes produced. -/
theorem map_snd_memWrite (h : InBlock b) (v : Byte) :
    (memWrite .out b.out b.dst.toNat v).map Prod.snd = produced b ++ [v] := by
  rw [memWrite_of_writtenUpTo h.written, List.map_append]
  rfl

/-! ### The one-function form, case by case -/

theorem inflate_full {n : Nat} {out : List Byte} (h : n ≤ out.length) (stream : List Byte) (fs : List Bool) :
    inflate n stream fs out = .ok out := by
  cases stream with
  | nil => exact if_pos h
  | cons v rest => unfold inflate; exact if_pos h

theorem inflate_missing {n : Nat} {out : List Byte} (h : out.length < n) (fs : List Bool) :
    inflate n [] fs out = .err .truncatedInput := by
  rw [inflate, if_neg (by omega)]

theorem inflate_flag {n : Nat} {out : List Byte} (h : out.length < n) (f : Byte) (stream : List Byte) :
    inflate n (f :: stream) [] out = inflate n stream (flagBits f) out := by
  rw [inflate, if_neg (by omega)]

theorem inflate_lit {n : Nat} {out : List Byte} (h : out.length < n) (d : Byte) (stream : List Byte)
    (fs : List Bool) : inflate n (d :: stream) (false :: fs) out = inflate n stream fs (out ++ [d]) := by
  rw [inflate, if_neg (by omega)]

theorem inflate_copy_missing {n : Nat} {out : List Byte} (h : out.length < n) (b1 : Byte) (fs : List Bool) :
    inflate n [b1] (true :: fs) out = .err .truncatedInput := by
  rw [inflate, if_neg (by omega)]

theorem inflate_copy {n : Nat} {out : List Byte} (h : out.length < n) (b1 b2 : Byte) (stream : List Byte)
    (fs : List Bool) :
    inflate n (b1 :: b2 :: stream) (true :: fs) out =
      if out.length < (copyDisplacement b1 b2).toNat then .err .corruptData
      else inflate n stream fs (copyLoop n (copyDisplacement b1 b2).toNat (copyLength b1).toNat out) := by
  rw [inflate, if_neg (by omega)]

theorem copyLoop_full {n : Nat} {out : List Byte} (h : n ≤ out.length) (cdisp m : Nat) :
    copyLoop n cdisp m out = out := by
  cases m with
  | zero => rfl
  | succ m => rw [copyLoop, if_pos h]

theorem decompress_header {offset : Nat} {n : BitVec 24} {stream : List Byte}
    (h : bytes.drop offset = encode (.hdr n) ++ stream) : decompress bytes offset = inflate n.toNat stream [] [] := by
  simp [decompress, h, encode, le24_bytes]

theorem decompress_bad_tag {offset : Nat} {v : Byte} (h : bytes[offset]? = some v) (hv : v ≠ 0x10) :
    decompress bytes offset = .err .invalidHeader := by
  obtain ⟨hlt, rfl⟩ := List.getElem?_eq_some_iff.1 h
  rw [decompress, List.drop_eq_getElem_cons hlt]
  exact if_neg hv

theorem decompress_short {offset : Nat} (hshort : bytes.length < offset + 4)
    (htag : offset < bytes.length → bytes[offset]? = some 0x10) :
    decompress bytes offset = .err .truncatedInput := by
  unfold decompress
  split
  · rfl
  · next t rest hdrop =>
    have hlen := congrArg List.length hdrop
    rw [List.length_drop, List.length_cons] at hlen
    have ht := htag (by omega)
    rw [← Nat.add_zero offset, ← List.getElem?_drop, hdrop] at ht
    cases ht
    rw [if_pos (show (0x10 : Byte) = Config.tag from rfl)]
    split
    · simp at hlen
      omega
    · rfl

/-! ### The response still to come -/

/-- `r` is what the one-function form makes of BD's registers, the bytes produced and the stream left; at rest it is the
response. -/
def Answers (bytes : List Byte) (b : Bd) (r : BdResponse) : Prop :=
  match b.phase with
  | .hdr => r = decompress bytes b.offset.toNat
  | .flag => r = inflate b.n.toNat (bytes.drop b.src.toNat) [] (produced b)
  | .unit => r = inflate b.n.toNat (bytes.drop b.src.toNat) ((flagBits b.flags).drop b.bit.toNat) (produced b)
  | .copy =>
    r = inflate b.n.toNat (bytes.drop b.src.toNat) ((flagBits b.flags).drop b.bit.toNat)
      (copyLoop b.n.toNat b.cdisp.toNat b.crem.toNat (produced b))
  | .idle | .done | .err => b.response = some r

/-- A completed block answers the bytes produced. -/
theorem response_of_done (h : InBlock b) (hphase : b.phase = .done) (hfull : b.dst = b.n) :
    b.response = some (.ok (produced b)) := by
  have hrange : memReadRange .out b.out 0 b.n.toNat = some (produced b) :=
    memReadRange_eq_some.2 ⟨hfull ▸ length_produced h, fun j _ => by rw [Nat.zero_add, memRead_out h]⟩
  rw [bdResponse_of_done hphase, hrange]
  rfl

/-- Sequencing keeps the response to come: it completes where the one-function form stops, and asks for a flag byte where
no flag bit is left (R95). -/
theorem answers_of_nextPhase (h : InBlock b) (hphase : b.phase = nextPhase b.n b.dst b.bit) (hle : b.dst ≤ b.n)
    (hr : r = inflate b.n.toNat (bytes.drop b.src.toNat) ((flagBits b.flags).drop b.bit.toNat) (produced b)) :
    Answers bytes b r := by
  unfold nextPhase at hphase
  rw [Answers]
  split at hphase
  · next hfull =>
    have hdst : b.dst = b.n := BitVec.le_antisymm hle hfull
    rw [hphase, hr, inflate_full (by rw [length_produced h, hdst])]
    exact response_of_done h hphase hdst
  · split at hphase
    · next hbit =>
      have hnone : (flagBits b.flags).drop b.bit.toNat = [] := by rw [hbit]; rfl
      rw [hphase, hr, hnone]
    · rw [hphase, hr]

/-- The flag bits from the position BD is at. -/
theorem flagBits_drop (f : Byte) {i : Nat} (h : i < 8) :
    (flagBits f).drop i = flagAt f i :: (flagBits f).drop (i + 1) := by
  have hlt : i < (flagBits f).length := h
  rw [List.drop_eq_getElem_cons hlt]
  simp [flagBits]

/-- While a literal or a back-reference is due, its flag bit is the next one. -/
theorem flagBits_of_unit {fl : Bool} (hbit : b.bit ≤ 7) (hflag : flagAt b.flags b.bit.toNat = fl) :
    (flagBits b.flags).drop b.bit.toNat = fl :: (flagBits b.flags).drop (b.bit + 1).toNat := by
  have hlt : b.bit.toNat < 8 := by bv_omega
  have hnext : (b.bit + 1).toNat = b.bit.toNat + 1 := by bv_omega
  rw [flagBits_drop _ hlt, hflag, hnext]

/-- What is left of the stream behind a unit at `src`. -/
theorem drop_src {i : Instr} (hin : ReadsIn b bytes) (hcursor : b.cursor = b.src.toNat) (h : Stands b i) :
    bytes.drop b.src.toNat = encode i ++ bytes.drop (b.src + BitVec.ofNat 32 i.kind.size).toNat := by
  have hbelow := h.below
  have hdrop := drop_of_stands hin h
  rw [hcursor] at hbelow hdrop
  rw [hdrop, add_toNat_of_below hbelow]

/-- What is left of the stream where a byte is missing. -/
theorem length_drop_lt {kind : UnitKind} (hin : ReadsIn b bytes) (hend : b.len.toNat < b.cursor + kind.size) :
    (bytes.drop b.cursor).length < kind.size := by
  have hpos := size_pos kind
  rw [List.length_drop, ← hin.len]
  omega

theorem answers_raise {e : Failure} (h : r = .err e) : Answers bytes (raise e s).bd r := by
  rw [h]
  exact raise_response e s

/-! ### Every step keeps the response to come -/

theorem answers_flag (h : b.phase = .flag) :
    Answers bytes b r ↔ r = inflate b.n.toNat (bytes.drop b.src.toNat) [] (produced b) := by
  rw [Answers, h]

theorem answers_unit (h : b.phase = .unit) :
    Answers bytes b r ↔
      r = inflate b.n.toNat (bytes.drop b.src.toNat) ((flagBits b.flags).drop b.bit.toNat) (produced b) := by
  rw [Answers, h]

theorem answers_copy (h : b.phase = .copy) :
    Answers bytes b r ↔
      r = inflate b.n.toNat (bytes.drop b.src.toNat) ((flagBits b.flags).drop b.bit.toNat)
        (copyLoop b.n.toNat b.cdisp.toNat b.crem.toNat (produced b)) := by
  rw [Answers, h]

theorem length_produced_lt (h : InBlock b) (howed : b.dst < b.n) : (produced b).length < b.n.toNat :=
  (length_produced h).trans_lt howed

theorem answers_afterFlag {f : Byte} (hin : ReadsIn b bytes) (h : InBlock b) (howed : b.dst < b.n)
    (hphase : b.phase = .flag) (hstands : Stands b (.flag f)) (hr : Answers bytes b r) :
    Answers bytes (afterFlag b f) r := by
  rw [answers_flag hphase, drop_src hin (cursor_of_flag hphase) hstands] at hr
  rw [answers_unit rfl]
  exact hr.trans (inflate_flag (length_produced_lt h howed) f _)

theorem answers_afterLit {d : Byte} (hin : ReadsIn b bytes) (h : InBlock b) (hsel : b.selects = some .lit)
    (hstands : Stands b (.lit d)) (hr : Answers bytes b r) : Answers bytes (afterLit b d) r := by
  obtain ⟨hphase, ⟨howed, hbit⟩, hflag⟩ := selects_lit.1 hsel
  rw [answers_unit hphase, drop_src hin (cursor_of_unit hphase) hstands, flagBits_of_unit hbit hflag] at hr
  have hout : produced (afterLit b d) = produced b ++ [d] := map_snd_memWrite h d
  refine answers_of_nextPhase (inBlock_afterLit h hphase howed hstands) rfl (succ_le_of_lt howed) ?_
  rw [hout]
  exact hr.trans (inflate_lit (length_produced_lt h howed) d _ _)

/-- At a back-reference with both its bytes there, the one-function form tests the displacement first (R91). -/
theorem answers_at_copy {clen : BitVec 5} {cdisp : BitVec 13} (hin : ReadsIn b bytes) (h : InBlock b)
    (hsel : b.selects = some .copy) (hstands : Stands b (.copy clen cdisp)) (hr : Answers bytes b r) :
    r = if b.dst.toNat < cdisp.toNat then .err .corruptData
      else inflate b.n.toNat (bytes.drop (b.src + 2).toNat) ((flagBits b.flags).drop (b.bit + 1).toNat)
        (copyLoop b.n.toNat cdisp.toNat clen.toNat (produced b)) := by
  obtain ⟨hphase, ⟨howed, hbit⟩, hflag⟩ := selects_copy.1 hsel
  rw [answers_unit hphase, drop_src hin (cursor_of_unit hphase) hstands, flagBits_of_unit hbit hflag,
    encode_copy] at hr
  have hform := hr.trans (inflate_copy (length_produced_lt h howed) _ _ _ _)
  rw [copyDisplacement_copyBytes hstands.wf, copyLength_copyByte1 hstands.wf, length_produced h] at hform
  exact hform

theorem answers_afterCopy {clen : BitVec 5} {cdisp : BitVec 13} (hin : ReadsIn b bytes) (h : InBlock b)
    (hsel : b.selects = some .copy) (hstands : Stands b (.copy clen cdisp)) (hnear : cdisp.toNat ≤ b.dst.toNat)
    (hr : Answers bytes b r) : Answers bytes (afterCopy b clen cdisp) r := by
  rw [answers_copy rfl, answers_at_copy hin h hsel hstands hr, if_neg (by omega)]
  rfl

/-- The byte loop takes the byte that the byte step reads (R93). -/
theorem copyLoop_step {v : Byte} (h : InBlock b) (hcopying : b.copying)
    (hread : memRead .out b.out (b.dst.toNat - b.cdisp.toNat) = some v) :
    copyLoop b.n.toNat b.cdisp.toNat b.crem.toNat (produced b) =
      copyLoop b.n.toNat b.cdisp.toNat (b.crem - 1).toNat (produced b ++ [v]) := by
  obtain ⟨-, hcrem, howed, -⟩ := hcopying
  have hnat : b.crem.toNat = (b.crem - 1).toNat + 1 := by bv_omega
  have hroom := length_produced_lt h howed
  rw [memRead_out h] at hread
  rw [hnat, copyLoop, if_neg (by omega), length_produced h, List.getD_eq_getElem?_getD, hread]
  rfl

theorem answers_afterCopyByte {v : Byte} (h : InBlock b) (hcopying : b.copying)
    (hread : memRead .out b.out (b.dst.toNat - b.cdisp.toNat) = some v) (hr : Answers bytes b r) :
    Answers bytes (afterCopyByte b v) r := by
  have hloop := copyLoop_step h hcopying hread
  obtain ⟨hphase, -, howed, -⟩ := hcopying
  have hblock := inBlock_afterCopyByte h howed v
  have hout : produced (afterCopyByte b v) = produced b ++ [v] := map_snd_memWrite h v
  rw [answers_copy hphase, hloop, ← hout] at hr
  by_cases hend : b.dst + 1 = b.n ∨ b.crem - 1 = 0
  · refine answers_of_nextPhase hblock (if_pos hend) (succ_le_of_lt howed) ?_
    have hstop : copyLoop b.n.toNat b.cdisp.toNat (b.crem - 1).toNat (produced (afterCopyByte b v)) =
        produced (afterCopyByte b v) := by
      rcases hend with hfull | hnone
      · exact copyLoop_full (by rw [length_produced hblock, ← hfull]; rfl) _ _
      · rw [hnone]
        rfl
    rw [hstop] at hr
    exact hr
  · exact (answers_copy (if_neg hend)).2 hr

/-- A byte missing past the header is what the one-function form misses (R122). -/
theorem truncated_of_answers {kind : UnitKind} (hin : ReadsIn b bytes) (h : InBlock b) (hphase : b.phase ≠ .hdr)
    (hsel : b.selects = some kind) (hend : b.len.toNat < b.cursor + kind.size) (hr : Answers bytes b r) :
    r = .err .truncatedInput := by
  have hshort := length_drop_lt hin hend
  have hone : kind.size = 1 → bytes.drop b.cursor = [] := fun hsize => List.length_eq_zero_iff.1 (by omega)
  obtain ⟨hpix2, hcolor⟩ := kind_of_selects hsel
  cases kind with
  | hdr => exact absurd (selects_hdr.1 hsel) hphase
  | flag =>
    obtain ⟨hphase, howed⟩ := selects_flag.1 hsel
    rw [cursor_of_flag hphase] at hone
    rw [answers_flag hphase, hone rfl] at hr
    exact hr.trans (inflate_missing (length_produced_lt h howed) _)
  | lit =>
    obtain ⟨hphase, ⟨howed, -⟩, -⟩ := selects_lit.1 hsel
    rw [cursor_of_unit hphase] at hone
    rw [answers_unit hphase, hone rfl] at hr
    exact hr.trans (inflate_missing (length_produced_lt h howed) _)
  | copy =>
    obtain ⟨hphase, ⟨howed, hbit⟩, hflag⟩ := selects_copy.1 hsel
    rw [cursor_of_unit hphase] at hshort
    rw [answers_unit hphase, flagBits_of_unit hbit hflag] at hr
    rw [hr]
    obtain hnone | ⟨b1, hb1⟩ : bytes.drop b.src.toNat = [] ∨ ∃ b1, bytes.drop b.src.toNat = [b1] := by
      rcases hdrop : bytes.drop b.src.toNat with _ | ⟨b1, _ | ⟨b2, more⟩⟩
      · exact .inl rfl
      · exact .inr ⟨b1, rfl⟩
      · simp [hdrop, UnitKind.size] at hshort
    · rw [hnone]
      exact inflate_missing (length_produced_lt h howed) _
    · rw [hb1]
      exact inflate_copy_missing (length_produced_lt h howed) b1 _
  | pix2 => exact absurd rfl hpix2
  | color => exact absurd rfl hcolor

/-- Past its header every effect of a step keeps the response to come. -/
theorem answers_of_bdEffect (hin : ReadsIn s.bd bytes) (hinv : s.bd.Inv) (hstream : s.bd.Streaming)
    (hr : Answers bytes s.bd r) (h : BdEffect s t) : Answers bytes t.bd r := by
  obtain ⟨hblock, howed⟩ := inBlock_of_inv hinv hstream
  have hhdr : s.bd.phase ≠ .hdr := fun e => by simp [Bd.Streaming, e] at hstream
  cases h with
  | rest => exact hr
  | hdr n hsel => exact absurd (selects_hdr.1 hsel) hhdr
  | flag f hsel hstands => exact answers_afterFlag hin hblock howed (selects_flag.1 hsel).1 hstands hr
  | lit d hsel hstands => exact answers_afterLit hin hblock hsel hstands hr
  | copy clen cdisp hsel hstands hnear => exact answers_afterCopy hin hblock hsel hstands hnear hr
  | copyByte v hcopying hread => exact answers_afterCopyByte hblock hcopying hread hr
  | badTag v hsel => exact absurd (selects_hdr.1 hsel) hhdr
  | truncated kind hsel hend => exact answers_raise (truncated_of_answers hin hblock hhdr hsel hend hr)
  | corrupt clen cdisp hsel hstands hfar =>
    exact answers_raise ((answers_at_copy hin hblock hsel hstands hr).trans (if_pos hfar))

/-- A good header hands over to the stream behind it, or to nothing at all where nothing is owed (R86). -/
theorem answers_afterHdr {n : BitVec 24} (hblock : InBlock (afterHdr b n))
    (hr : r = inflate n.toNat (bytes.drop (b.offset + 4).toNat) [] []) : Answers bytes (afterHdr b n) r := by
  by_cases hzero : n = 0
  · have hphase : (afterHdr b n).phase = .done := if_pos hzero
    rw [Answers, hphase, hr, inflate_full (by rw [hzero]; exact Nat.le_refl 0)]
    exact response_of_done hblock hphase hzero.symm
  · exact (answers_flag (if_neg hzero)).2 hr

/-! ### The run of a launch -/

/-- A launched BD on its way to the response `r`: at its header, with OUT as it may be, or past it. -/
structure Underway (bytes : List Byte) (r : BdResponse) (b : Bd) : Prop where
  reads : ReadsIn b bytes
  answers : Answers bytes b r
  noError : b.phase = .hdr → b.errcode = .noError
  past : b.phase ≠ .hdr → PastHeader b
  inv : b.Streaming → b.Inv

/-- BD keeps IN, so the bytes stay what they are. -/
theorem readsIn_of_bdStep (hin : ReadsIn s.bd bytes) (h : bdStep s = .next t) : ReadsIn t.bd bytes := by
  obtain ⟨hinput, hlen, -⟩ := bdStep_frame h
  exact ⟨hinput ▸ hin.wf, hlen ▸ hin.len, hinput ▸ hin.reads⟩

theorem underway_of_pastHeader (hin : ReadsIn b bytes) (hr : Answers bytes b r) (hpast : PastHeader b)
    (hinv : b.Streaming → b.Inv) : Underway bytes r b :=
  ⟨hin, hr, fun e => absurd e (phase_ne_hdr_of_pastHeader hpast), fun _ => hpast, hinv⟩

theorem underway_of_raise {e : Failure} (hin : ReadsIn (raise e s).bd bytes) (hr : r = .err e) :
    Underway bytes r (raise e s).bd :=
  underway_of_pastHeader hin (answers_raise hr) (.inr (.inr rfl)) (by simp [Bd.Streaming])

/-- The header's step leaves BD underway: a good header opens the block, the others end with the failure that the
one-function form gives (R83, R99). -/
theorem underway_of_hdr (h : Underway bytes r s.bd) (hphase : s.bd.phase = .hdr) :
    ∃ t, bdStep s = .next t ∧ Underway bytes r t.bd ∧ t.bd.stepsLeft < s.bd.stepsLeft := by
  obtain ⟨hin, hr, hnoError, -, -⟩ := h
  have hr : r = decompress bytes s.bd.offset.toNat := by rwa [Answers, hphase] at hr
  have hfail : ∀ e, (raise e s).bd.stepsLeft < s.bd.stepsLeft := by
    intro e
    rw [Bd.stepsLeft, Bd.stepsLeft, raise_phase, hphase]
    exact Nat.mul_pos (by decide) (by decide)
  have hloaded := loaded_of_readsIn hin
  rcases bdStep_of_hdr hphase hloaded with ⟨n, hstands, hstep⟩ | ⟨hstep, -, v, hread, hv⟩ | ⟨hstep, hend, htag⟩
  · have hblock := inBlock_afterHdr hin.wf hloaded hphase (hnoError hphase) hstands
    have hdrop := drop_of_stands hin hstands
    have hbelow := hstands.below
    rw [cursor_of_hdr hphase] at hdrop hbelow
    rw [← add_toNat_of_below hbelow] at hdrop
    have hanswers := answers_afterHdr hblock (hr.trans (decompress_header hdrop))
    exact ⟨_, hstep, underway_of_pastHeader (readsIn_of_bdStep hin hstep) hanswers (pastHeader_afterHdr _ n)
      fun _ => inv_afterHdr hblock, left_afterHdr n hphase⟩
  · rw [hin.reads] at hread
    exact ⟨_, hstep, underway_of_raise (readsIn_of_bdStep hin hstep) (hr.trans (decompress_bad_tag hread hv)),
      hfail _⟩
  · rw [hin.reads, hin.len] at htag
    rw [hin.len] at hend
    exact ⟨_, hstep, underway_of_raise (readsIn_of_bdStep hin hstep) (hr.trans (decompress_short hend htag)),
      hfail _⟩

/-- A busy BD underway steps, stays underway and has less left to do. -/
theorem underway_of_busy (h : Underway bytes r s.bd) (hbusy : s.bd.status = .busy) :
    ∃ t, bdStep s = .next t ∧ Underway bytes r t.bd ∧ t.bd.stepsLeft < s.bd.stepsLeft := by
  by_cases hphase : s.bd.phase = .hdr
  · exact underway_of_hdr h hphase
  · have hstream : s.bd.Streaming := (status_eq_busy.1 hbusy).resolve_left hphase
    have hinv := h.inv hstream
    obtain ⟨t, hstep⟩ := bdStep_next_of_inv hinv
    have heffect := bdEffect_of_bdStep hstep
    have hanswers := answers_of_bdEffect h.reads hinv hstream h.answers heffect
    exact ⟨t, hstep, underway_of_pastHeader (readsIn_of_bdStep h.reads hstep) hanswers
      (pastHeader_of_bdEffect (.inl hstream) heffect) fun _ => inv_of_bdEffect hinv heffect,
      (left_of_bdEffect hinv hbusy heffect).1⟩

/-- At rest the response to come is there. -/
theorem response_of_underway (h : Underway bytes r b) (hrest : b.status ≠ .busy) : b.response = some r := by
  rw [Ne, status_eq_busy, not_or] at hrest
  obtain ⟨hhdr, hstream⟩ := hrest
  have hr := h.answers
  rcases (h.past hhdr).resolve_left hstream with hphase | hphase <;> rwa [Answers, hphase] at hr

/-- A launch sets BD underway to what the one-function form gives, whatever BD held before (R81). -/
theorem underway_of_launchBd (offset : BitVec 32) (hlen : bytes.length < Config.lenBound) (s : State) :
    Underway bytes (decompress bytes offset.toNat) (launchBd bytes offset s).bd := by
  obtain ⟨hwf, hlenNat, hread⟩ := launchBd_loaded bytes offset s hlen
  have hphase : (launchBd bytes offset s).bd.phase = .hdr := rfl
  exact ⟨⟨hwf, hlenNat, hread⟩, rfl, fun _ => rfl, fun hne => absurd hphase hne, by simp [Bd.Streaming, hphase]⟩

/-- BD has the move while it is busy: nothing else is on the agenda, or the host waits for it. -/
def BdHasMove (s : State) : Prop := s.agenda = [] ∨ ∃ rest, s.agenda = .awaitBd :: rest

theorem step_of_bdHasMove (h : BdHasMove s) (hbusy : s.bd.status = .busy) : step s = bdStep s := by
  rcases h with hagenda | ⟨rest, hagenda⟩
  · rw [step_of_free hagenda, if_pos hbusy]
  · rw [step_of_awaitBd hagenda, if_pos hbusy]

/-- While BD has the move, the machine runs it to its response and leaves everything outside BD alone. -/
theorem steps_to_response (h : Underway bytes r s.bd) (hmove : BdHasMove s) :
    ∃ k t, Steps step k s t ∧ t.bd.response = some r ∧ t.bd.status ≠ .busy ∧
      t.trd = s.trd ∧ t.host = s.host ∧ t.agenda = s.agenda := by
  have hstep : ∀ u : State,
      Underway bytes r u.bd ∧ u.trd = s.trd ∧ u.host = s.host ∧ u.agenda = s.agenda → u.bd.status = .busy →
      ∃ t, step u = .next t ∧ (Underway bytes r t.bd ∧ t.trd = s.trd ∧ t.host = s.host ∧ t.agenda = s.agenda) ∧
        t.bd.stepsLeft < u.bd.stepsLeft := by
    rintro u ⟨hu, htrd, hhost, hagenda⟩ hbusy
    obtain ⟨t, ht, hunder, hless⟩ := underway_of_busy hu hbusy
    obtain ⟨-, -, -, htrd', -, hhost', hagenda'⟩ := bdStep_frame ht
    have hmove' : BdHasMove u := by rwa [BdHasMove, hagenda]
    exact ⟨t, (step_of_bdHasMove hmove' hbusy).trans ht,
      ⟨hunder, htrd'.trans htrd, hhost'.trans hhost, hagenda'.trans hagenda⟩, hless⟩
  obtain ⟨k, -, t, hsteps, ⟨hunder, hframe⟩, hrest⟩ :=
    exists_steps_within (μ := fun u => u.bd.stepsLeft) hstep ⟨h, rfl, rfl, rfl⟩
  exact ⟨k, t, hsteps, response_of_underway hunder hrest, hrest, hframe⟩

/-- The launch of a block, and BD run to its response while it has the move. -/
theorem steps_of_start {offset : BitVec 32} {rest : List Move} (hagenda : s.agenda = .host (.start bytes offset) :: rest)
    (hrest : s.bd.status ≠ .busy) (hlen : bytes.length < Config.lenBound)
    (hmove : rest = [] ∨ ∃ more, rest = .awaitBd :: more) :
    ∃ k t, Steps step k s t ∧ t.bd.response = some (decompress bytes offset.toNat) ∧ t.bd.status ≠ .busy ∧
      t.trd = s.trd ∧ t.host = s.host ∧ t.agenda = rest := by
  have hstep : step s = .next (launchBd bytes offset (s.setAgenda rest)) :=
    (step_of_host hagenda).trans (hostStart_of_rest offset hrest hlen)
  obtain ⟨k, t, hsteps, hend⟩ := steps_to_response (underway_of_launchBd offset hlen (s.setAgenda rest)) hmove
  exact ⟨k + 1, t, .cons hstep hsteps, hend⟩

/-- Settles O52: with nothing else on the agenda BD has the move until its response is there. -/
theorem bdRunAnswersDecompress : Obligations.BdRunAnswersDecompress := by
  intro s bytes offset hagenda hrest hlen
  obtain ⟨k, t, hsteps, hresponse, -, -, -, hdone⟩ := steps_of_start hagenda hrest hlen (.inl rfl)
  exact ⟨k, t, run_of_steps hsteps, hdone, hresponse⟩

end Sys2Proof.Proofs.Decompression
end

section
/-! PROOFS. TRD's run paints what `decodeTiles` gives, and the intended sprite sequence: two blocks decompressed and taken,
in either order, then the sprite launched. -/

namespace Sys2Proof.Proofs.SpriteSequence

open Sys2Proof.Machine Sys2Proof.Proofs.HostMoves Sys2Proof.Proofs.TrdResponse Sys2Proof.Proofs.StepFrames
  Sys2Proof.Proofs.MachineInvariant Sys2Proof.Proofs.Runs Sys2Proof.Proofs.Decompression

variable {s t : State} {bytes : List Byte} {pal : Palette}

/-! ### TRD's run -/

/-- A launched TRD on its way: its arguments are as launched, and the tile bytes left turn its raster into the one the
one-function form gives. -/
structure Painting (bytes : List Byte) (pal : Palette) (t : Trd) : Prop where
  tlen : t.tlen = bytes.length
  reads : ∀ a, memRead .tile t.tile a = bytes[a]?
  palette : t.pal = pal
  raster : paintTiles pal t.k.toNat (bytes.drop t.k.toNat) t.raster = decodeTiles bytes pal
  position : t.tphase = .tbusy ∧ t.k.toNat < min bytes.length 2048 ∨
    t.tphase = .tdone ∧ t.k.toNat = min bytes.length 2048

theorem painting_of_launchTrd (bytes : List Byte) (pal : Palette) (s : State) :
    Painting bytes pal (launchTrd bytes pal s).trd := by
  obtain ⟨hpal, -, hk, htlen, htile, hphase⟩ := launchTrd_trd bytes pal s
  refine ⟨htlen, htile, hpal, rfl, ?_⟩
  rw [hphase, hk]
  by_cases hzero : bytes.length = 0
  · exact .inr ⟨if_pos hzero, by simp [hzero]⟩
  · exact .inl ⟨if_neg hzero, by simp; omega⟩

/-- What TRD has left to do is the tile bytes up to the end of the stream or of the canvas (R109). -/
theorem stepsLeft_of_painting {t : Trd} (h : Painting bytes pal t) :
    t.stepsLeft = min bytes.length 2048 - t.k.toNat := by
  rw [Trd.stepsLeft]
  rcases h.position with ⟨hphase, -⟩ | ⟨hphase, hk⟩
  · rw [hphase, h.tlen]
    rfl
  · rw [hphase, hk, Nat.sub_self]

theorem busy_of_painting {t : Trd} (h : Painting bytes pal t) (hleft : t.stepsLeft ≠ 0) : t.tphase = .tbusy := by
  rw [stepsLeft_of_painting h] at hleft
  rcases h.position with ⟨hbusy, -⟩ | ⟨-, hend⟩
  · exact hbusy
  · omega

/-- A step of TRD takes the next tile byte, as the one-function form does. -/
theorem painting_of_trdStep (h : Painting bytes pal s.trd) (hleft : s.trd.stepsLeft ≠ 0) :
    ∃ t, trdStep s = .next t ∧ Painting bytes pal t.trd ∧ t.trd.stepsLeft + 1 = s.trd.stepsLeft := by
  have hbusy := busy_of_painting h hleft
  rw [stepsLeft_of_painting h] at hleft
  have hk : s.trd.k.toNat < bytes.length := by omega
  have hdecoding : s.trd.decoding := ⟨hbusy, by show _ < 2048; omega, by rw [h.tlen]; exact hk⟩
  have hread : memRead .tile s.trd.tile s.trd.k.toNat = some bytes[s.trd.k.toNat] := by
    rw [h.reads, List.getElem?_eq_getElem hk]
  have hstep := trdStep_of_tile hdecoding hread
  obtain ⟨hnext, hphase⟩ := afterTile_progress bytes[s.trd.k.toNat] hdecoding
  refine ⟨_, hstep, ⟨h.tlen, h.reads, h.palette, ?_, ?_⟩, trd_stepsLeft_of_busy hbusy hstep⟩
  · have hraster := h.raster
    rw [List.drop_eq_getElem_cons hk, paintTiles, if_pos hdecoding.2.1] at hraster
    rw [State.setTrd_trd, hnext, ← hraster, ← h.palette]
    rfl
  · rw [State.setTrd_trd, hnext, ← h.tlen]
    exact hphase.symm

/-- With no tile byte left the raster is the one the one-function form gives (R108, R110). -/
theorem raster_of_painting {t : Trd} (h : Painting bytes pal t) (hend : t.stepsLeft = 0) :
    t.tphase = .tdone ∧ t.k.toNat = min bytes.length 2048 ∧ t.raster = decodeTiles bytes pal := by
  rw [stepsLeft_of_painting h] at hend
  obtain ⟨hphase, hk⟩ : t.tphase = .tdone ∧ t.k.toNat = min bytes.length 2048 := by
    rcases h.position with ⟨-, hk⟩ | hdone
    · omega
    · exact hdone
  refine ⟨hphase, hk, ?_⟩
  rw [← h.raster]
  by_cases hshort : bytes.length ≤ t.k.toNat
  · rw [List.drop_eq_nil_of_le hshort, paintTiles]
  · have hfull : ¬ t.k.toNat < Config.tileStreamBytes := by show ¬ _ < 2048; omega
    rw [List.drop_eq_getElem_cons (Nat.not_le.1 hshort), paintTiles, if_neg hfull]

/-- TRD has the move while it is busy: nothing else is on the agenda and BD is at rest, or the host waits for TRD. -/
def TrdHasMove (s : State) : Prop :=
  s.agenda = [] ∧ s.bd.status ≠ .busy ∨ ∃ rest, s.agenda = .awaitTrd :: rest

theorem step_of_trdHasMove (h : TrdHasMove s) (hbusy : s.trd.tphase = .tbusy) : step s = trdStep s := by
  have hbusy : s.trd.tstatus = .tbusy := hbusy
  rcases h with ⟨hagenda, hrest⟩ | ⟨rest, hagenda⟩
  · rw [step_of_free hagenda, if_neg hrest]
  · rw [step_of_awaitTrd hagenda, if_pos hbusy]

/-- While TRD has the move, the machine runs it to its last tile byte, one step for each, and leaves BD alone. -/
theorem steps_to_raster (h : Painting bytes pal s.trd) (hmove : TrdHasMove s) :
    ∃ t, Steps step s.trd.stepsLeft s t ∧ t.bd = s.bd ∧ t.agenda = s.agenda ∧ t.trd.tphase = .tdone ∧
      t.trd.k.toNat = min bytes.length 2048 ∧ t.trd.raster = decodeTiles bytes pal := by
  have hstep : ∀ u : State, Painting bytes pal u.trd ∧ u.bd = s.bd ∧ u.agenda = s.agenda → u.trd.stepsLeft ≠ 0 →
      ∃ t, step u = .next t ∧ (Painting bytes pal t.trd ∧ t.bd = s.bd ∧ t.agenda = s.agenda) ∧
        t.trd.stepsLeft + 1 = u.trd.stepsLeft := by
    rintro u ⟨hu, hbd, hagenda⟩ hleft
    obtain ⟨t, ht, hpaint, hless⟩ := painting_of_trdStep hu hleft
    obtain ⟨-, -, -, hbd', -, -, hagenda', -⟩ := trdStep_frame ht
    have hmove' : TrdHasMove u := by rwa [TrdHasMove, hagenda, hbd]
    exact ⟨t, (step_of_trdHasMove hmove' (busy_of_painting hu hleft)).trans ht, ⟨hpaint, hbd'.trans hbd, hagenda'.trans hagenda⟩, hless⟩
  obtain ⟨t, hsteps, ⟨hpaint, hbd, hagenda⟩, hend⟩ :=
    exists_steps_exactly (μ := fun u => u.trd.stepsLeft) hstep ⟨h, rfl, rfl⟩
  exact ⟨t, hsteps, hbd, hagenda, raster_of_painting hpaint hend⟩

/-- Settles O53: with nothing else on the agenda and BD at rest TRD has the move until its raster is decoded. -/
theorem trdRunAnswersDecodeTiles : Obligations.TrdRunAnswersDecodeTiles := by
  intro s bytes pal hagenda hrest htrest
  have hstep : step s = .next (launchTrd bytes pal (s.setAgenda [])) :=
    (step_of_host hagenda).trans (hostTstart_of_rest bytes pal htrest)
  have hpaint := painting_of_launchTrd bytes pal (s.setAgenda [])
  obtain ⟨t, hsteps, hbd, hdone, hphase, hk, hraster⟩ := steps_to_raster hpaint (.inl ⟨rfl, hrest⟩)
  rw [stepsLeft_of_painting hpaint] at hsteps
  obtain ⟨-, buf, hresponse, hlen, hread⟩ := completedDecodeAnswersItsWholeRaster t.trd hphase
  rw [hraster] at hread
  refine ⟨t, ?_, hdone, hphase, hraster, hk, hbd, buf, hresponse, hlen, hread⟩
  rw [Nat.add_comm]
  exact run_of_steps (.cons hstep hsteps)

/-! ### The sprite sequence -/

/-- One block of the sequence: launched, waited for and taken. -/
theorem steps_of_block {offset : BitVec 32} {rest : List Move}
    (hagenda : s.agenda = .host (.start bytes offset) :: .awaitBd :: .host .takeBd :: rest)
    (hrest : s.bd.status ≠ .busy) (hlen : bytes.length < Config.lenBound) :
    ∃ k t, Steps step k s t ∧ t.agenda = rest ∧ t.bd.status ≠ .busy ∧ t.trd = s.trd ∧
      t.host.taken = s.host.taken ++ [decompress bytes offset.toNat] := by
  obtain ⟨k, u, hsteps, hresponse, hurest, htrd, hhost, huagenda⟩ :=
    steps_of_start hagenda hrest hlen (.inr ⟨_, rfl⟩)
  have hwait : step u = .next (u.setAgenda (.host .takeBd :: rest)) := by
    rw [step_of_awaitBd huagenda, if_neg hurest]
  obtain ⟨htake, -⟩ := takingAResponseLeavesTheEngines (u.setAgenda (.host .takeBd :: rest)) rest
  obtain ⟨htaken, -⟩ := htake rfl
  refine ⟨2 + k, _, hsteps.trans (.cons hwait (.one (htaken _ hresponse))), rfl, hurest, htrd, ?_⟩
  show u.host.taken ++ _ = _
  rw [hhost]

/-- The end of the sequence: the sprite launched from two good responses and waited for. -/
theorem steps_of_sprite {g p : Nat} {gfx palBuf : List Byte} (hagenda : s.agenda = [.host (.tstartSprite g p), .awaitTrd])
    (hg : s.host.taken[g]? = some (.ok gfx)) (hp : s.host.taken[p]? = some (.ok palBuf))
    (hpal : packPalette palBuf = some pal) (hrest : s.trd.tstatus ≠ .tbusy) :
    ∃ k t, Steps step k s t ∧ t.agenda = [] ∧ t.trd.tstatus = .tdone ∧ t.trd.raster = decodeTiles gfx pal := by
  have hlaunch : step s = .next (launchTrd gfx pal (s.setAgenda [.awaitTrd])) := by
    rw [step_of_tstartSprite hagenda hg hp, launchSprite_ok hpal]
    exact hostTstart_of_rest gfx pal hrest
  obtain ⟨u, hsteps, -, huagenda, hphase, -, hraster⟩ :=
    steps_to_raster (painting_of_launchTrd gfx pal (s.setAgenda [.awaitTrd])) (.inr ⟨[], rfl⟩)
  have hidle : u.trd.tstatus ≠ .tbusy := by
    rw [Trd.tstatus, hphase]
    decide
  have hwait : step u = .next (u.setAgenda []) := by
    rw [step_of_awaitTrd huagenda, if_neg hidle]
  exact ⟨_, _, (Steps.cons hlaunch hsteps).trans (.one hwait), rfl, hphase, hraster⟩

/-- The sequence with its blocks in the order given and the responses named by their places. -/
theorem steps_of_spriteMoves {first second : BitVec 32} {g p : Nat} {gfx palBuf : List Byte}
    (hagenda : s.agenda = spriteMoves bytes first second g p) (hrest : s.bd.status ≠ .busy)
    (htrest : s.trd.tstatus ≠ .tbusy) (hlen : bytes.length < Config.lenBound)
    (hg : (s.host.taken ++ [decompress bytes first.toNat, decompress bytes second.toNat])[g]? = some (.ok gfx))
    (hp : (s.host.taken ++ [decompress bytes first.toNat, decompress bytes second.toNat])[p]? = some (.ok palBuf))
    (hpal : packPalette palBuf = some pal) :
    ∃ k t, Steps step k s t ∧ t.agenda = [] ∧ t.trd.tstatus = .tdone ∧ t.trd.raster = decodeTiles gfx pal := by
  obtain ⟨k₁, u, hsteps₁, huagenda, hurest, hutrd, hutaken⟩ := steps_of_block hagenda hrest hlen
  obtain ⟨k₂, v, hsteps₂, hvagenda, -, hvtrd, hvtaken⟩ := steps_of_block huagenda hurest hlen
  have htaken : v.host.taken =
      s.host.taken ++ [decompress bytes first.toNat, decompress bytes second.toNat] := by
    rw [hvtaken, hutaken, List.append_assoc]
    rfl
  obtain ⟨k₃, t, hsteps₃, hend⟩ :=
    steps_of_sprite hvagenda (htaken ▸ hg) (htaken ▸ hp) hpal (by rw [hvtrd, hutrd]; exact htrest)
  exact ⟨_, t, hsteps₁.trans (hsteps₂.trans hsteps₃), hend⟩

/-- Settles O54: in either order the places named hold the graphics block's response and the palette block's. -/
theorem spriteSequenceDecodesTheRaster : Obligations.SpriteSequenceDecodesTheRaster := by
  intro s bytes gfx palBuf offGfx offPal pal hagenda hrest htrest hlen hgfx hpalBuf hpal
  obtain ⟨k, t, hsteps, hend⟩ : ∃ k t, Steps step k s t ∧ t.agenda = [] ∧ t.trd.tstatus = .tdone ∧
      t.trd.raster = decodeTiles gfx pal := by
    rcases hagenda with hagenda | hagenda <;>
      exact steps_of_spriteMoves hagenda hrest htrest hlen (by simp [hgfx]) (by simp [hpalBuf]) hpal
  exact ⟨k, t, run_of_steps hsteps, hend⟩

end Sys2Proof.Proofs.SpriteSequence
end
